-- ==== Sys2Proof/Word.lean ====
section
/-!
DEFINITION. The quantities of ESJ-CORE (spec/00_scope.md rule R6): a byte is 8 bits, a word 32 bits, a counter64
64 bits; all are unsigned and wrap.
-/

namespace Sys2Proof

/-- A byte, the cell of buffer memory (R6, R40). -/
abbrev Byte := BitVec 8

/-- A word (R6). -/
abbrev Word := BitVec 32

/-- A counter64 (R6): the two length counters. -/
abbrev Counter64 := BitVec 64

end Sys2Proof
end

