-- ==== Sys2Proof/Syntax.lean ====
section
/-!
DEFINITION. The command set of ESJ-CORE (spec/30_encoding.md): the four-word descriptor by which a command arrives
(R60) and the eleven commands it can be (R64), each with the operands R62 says it uses.
-/

namespace Sys2Proof

/-- A descriptor: the four words the host presents by value (R60, R61). -/
structure Descriptor where
  /-- `W0`: `OPCODE` in 7:0, `MODE` in 8, reserved 31:9. -/
  w0 : Word
  /-- `W1 = SRC`. -/
  w1 : Word
  /-- `W2 = DST`. -/
  w2 : Word
  /-- `W3 = LEN`. -/
  w3 : Word
  deriving DecidableEq, Repr

/-- The `MODE` selector (spec/10_state.md R18): bit value 0 is `encrypt`, 1 is `decrypt`. -/
inductive Mode where
  | encrypt
  | decrypt
  deriving DecidableEq, Repr

/-- The commands of R64. A constructor carries the operand words R62 marks as used and no others: an ignored word has
no effect, so it is not part of the command. -/
inductive Instr where
  /-- `SETUP_KEY` (R100): mode, `SRC`, `KBITS`. -/
  | setupKey (mode : Mode) (src kbits : Word)
  /-- `SETUP_NONCE` (R104): `SRC`, `NBITS`. -/
  | setupNonce (src nbits : Word)
  /-- `PROCESS_AAD` (R120): `SRC`, `LEN`. -/
  | processAad (src len : Word)
  /-- `PROCESS` (R121): `SRC`, `DST`, `LEN`. -/
  | process (src dst len : Word)
  /-- `FINALIZE` (R140): `DST`. -/
  | finalize (dst : Word)
  /-- `RESET` (R106). -/
  | reset
  /-- `ERASE` (R141). -/
  | erase
  /-- `GET_KEY_SIZE` (R142). -/
  | getKeySize
  /-- `GET_NONCE_SIZE` (R143). -/
  | getNonceSize
  /-- `GET_WORD_SIZE` (R144). -/
  | getWordSize
  /-- `GET_MAC_SIZE` (R145). -/
  | getMacSize
  deriving DecidableEq, Repr

/-- The pseudo-instructions of R72, with the operands each is written with. -/
inductive Pseudo where
  /-- `SETUP_NONCE src=<a>`, no size given. -/
  | setupNonce (src : Word)
  /-- `SETUP_KEY.E src=<a>, bytes=<n>`, and `.D`. -/
  | setupKeyBytes (mode : Mode) (src bytes : Word)
  /-- `PROCESS.IP addr=<a>, len=<n>`. -/
  | processInPlace (addr len : Word)
  /-- `.word <W0> <W1> <W2> <W3>`. -/
  | word (d : Descriptor)
  deriving DecidableEq, Repr

end Sys2Proof
end

