-- ==== Sys2Proof/WellFormed.lean ====
section
/-!
DEFINITION. Which descriptors are legal (spec/30_encoding.md R61, R64, R65). The three checks are the three ways R65
gives for a `W0` to be illegal; `W1..W3` are never checked (R62). An `Instr` needs no check: each operand fills a
whole word and R62 accepts every value of it.
-/

namespace Sys2Proof

/-- `W0[31:9]` is zero (R61, R65). -/
def Descriptor.reservedClear (d : Descriptor) : Bool :=
  d.w0.extractLsb' 9 23 == 0#23

/-- `W0[8]` is zero unless the opcode is `SETUP_KEY`'s (R61, R65). -/
def Descriptor.modeBitLegal (d : Descriptor) : Bool :=
  d.w0.extractLsb' 0 8 == 0x01#8 || d.w0.extractLsb' 8 1 == 0#1

/-- `W0[7:0]` is one of `0x01 .. 0x0B` (R64, R65). -/
def Descriptor.opcodeAssigned (d : Descriptor) : Bool :=
  0x01#8 ≤ d.w0.extractLsb' 0 8 && d.w0.extractLsb' 0 8 ≤ 0x0B#8

/-- The descriptor is legal: it passes all three checks of R65. -/
def Descriptor.wellFormed (d : Descriptor) : Bool :=
  d.reservedClear && d.modeBitLegal && d.opcodeAssigned

/-- Every command is well formed: R61 and R62 put no condition on an operand word beyond its width, which its type
already fixes (a size or a range the command turns down is answered by a response, not by the encoding). -/
def Instr.wellFormed : Instr → Bool
  | .setupKey _ _ _ => true
  | .setupNonce _ _ => true
  | .processAad _ _ => true
  | .process _ _ _ => true
  | .finalize _ => true
  | .reset => true
  | .erase => true
  | .getKeySize => true
  | .getNonceSize => true
  | .getWordSize => true
  | .getMacSize => true

end Sys2Proof
end

