-- ==== Sys2Proof/Decode.lean ====
section
/-!
DEFINITION. The decoder and the encoder (spec/30_encoding.md R64 to R66, R70, R71). Decoding is a total function of
`W0` (R66); the operand words ride along. The serialised form is R70's: `W0, W1, W2, W3`, each little-endian.
-/

namespace Sys2Proof

/-- Why a descriptor is rejected: one name for each way R65 gives, and one for a byte string too short to be one. -/
inductive DecodeReject where
  /-- Some bit of `W0[31:9]` is set. -/
  | reservedBits
  /-- `W0[8]` is set with an opcode other than `SETUP_KEY`'s. -/
  | modeBit
  /-- `W0[7:0]` is `0x00` or `0x0C .. 0xFF`. -/
  | opcode
  /-- Fewer than the sixteen bytes of R70. -/
  | truncated
  deriving DecidableEq, Repr

/-- The `OPCODE` field `W0[7:0]` (R61). -/
def Descriptor.opcode (d : Descriptor) : Byte := d.w0.extractLsb' 0 8

/-- The `MODE` field `W0[8]` (R61). -/
def Descriptor.modeBit (d : Descriptor) : BitVec 1 := d.w0.extractLsb' 8 1

/-- The reserved field `W0[31:9]` (R61). -/
def Descriptor.reserved (d : Descriptor) : BitVec 23 := d.w0.extractLsb' 9 23

/-- The `MODE` bit as a mode: 0 is Encrypt, 1 is Decrypt (R61). -/
def modeOfBit (b : BitVec 1) : Mode := if b = 1#1 then .decrypt else .encrypt

/-- The mode as the `MODE` bit (R61). -/
def bitOfMode : Mode → BitVec 1
  | .encrypt => 0#1
  | .decrypt => 1#1

/-- The command of the row of R64 whose opcode is in `0x02 .. 0x0B`; any other opcode is unassigned (R65). -/
def commandOfOpcode (op : Byte) (src dst len : Word) : Except DecodeReject Instr :=
  if op = 0x02#8 then .ok (.setupNonce src len)
  else if op = 0x03#8 then .ok (.processAad src len)
  else if op = 0x04#8 then .ok (.process src dst len)
  else if op = 0x05#8 then .ok (.finalize dst)
  else if op = 0x06#8 then .ok .reset
  else if op = 0x07#8 then .ok .erase
  else if op = 0x08#8 then .ok .getKeySize
  else if op = 0x09#8 then .ok .getNonceSize
  else if op = 0x0A#8 then .ok .getWordSize
  else if op = 0x0B#8 then .ok .getMacSize
  else .error .opcode

/-- `decode` of R66, its cases in its order. -/
def decodeDescriptor (d : Descriptor) : Except DecodeReject Instr :=
  if d.reserved ≠ 0#23 then .error .reservedBits
  else if d.opcode = 0x01#8 then .ok (.setupKey (modeOfBit d.modeBit) d.w1 d.w3)
  else if d.modeBit = 1#1 then .error .modeBit
  else commandOfOpcode d.opcode d.w1 d.w2 d.w3

/-- Four bytes in address order as a little-endian word (R43, R70). -/
def wordOfBytes (b0 b1 b2 b3 : Byte) : Word := b3 ++ b2 ++ b1 ++ b0

/-- A word as its four bytes in address order (R43, R70). -/
def bytesOfWord (w : Word) : List Byte :=
  [w.extractLsb' 0 8, w.extractLsb' 8 8, w.extractLsb' 16 8, w.extractLsb' 24 8]

/-- The descriptor a byte string begins with, in the serialised form of R70, and the bytes after it. -/
def descriptorOfBytes : List Byte → Option (Descriptor × List Byte)
  | a0 :: a1 :: a2 :: a3 :: b0 :: b1 :: b2 :: b3 :: c0 :: c1 :: c2 :: c3 :: d0 :: d1 :: d2 :: d3 :: rest =>
    some (⟨wordOfBytes a0 a1 a2 a3, wordOfBytes b0 b1 b2 b3, wordOfBytes c0 c1 c2 c3, wordOfBytes d0 d1 d2 d3⟩, rest)
  | _ => none

/-- A descriptor in the serialised form of R70. -/
def bytesOfDescriptor (d : Descriptor) : List Byte :=
  bytesOfWord d.w0 ++ bytesOfWord d.w1 ++ bytesOfWord d.w2 ++ bytesOfWord d.w3

/-- Decoding of any byte string: the command its first sixteen bytes are, with the bytes after them, or the name of
the reason it is none. -/
def decode (bs : List Byte) : Except DecodeReject (Instr × List Byte) :=
  match descriptorOfBytes bs with
  | none => .error .truncated
  | some (d, rest) =>
    match decodeDescriptor d with
    | .error e => .error e
    | .ok i => .ok (i, rest)

/-- The `W0` of a command other than `SETUP_KEY`: its opcode, every other bit zero (R64). -/
def w0OfOpcode (op : Byte) : Word := op.setWidth 32

/-- The `W0` of `SETUP_KEY`: `0x00000001` for Encrypt, `0x00000101` for Decrypt (R64). -/
def w0OfSetupKey (m : Mode) : Word := (0#23 ++ bitOfMode m) ++ 0x01#8

/-- The descriptor of a command (R64, R71); an operand word the command does not use is assembled as 0 (R71). -/
def encode : Instr → Descriptor
  | .setupKey m src kbits => ⟨w0OfSetupKey m, src, 0, kbits⟩
  | .setupNonce src nbits => ⟨w0OfOpcode 0x02, src, 0, nbits⟩
  | .processAad src len => ⟨w0OfOpcode 0x03, src, 0, len⟩
  | .process src dst len => ⟨w0OfOpcode 0x04, src, dst, len⟩
  | .finalize dst => ⟨w0OfOpcode 0x05, 0, dst, 0⟩
  | .reset => ⟨w0OfOpcode 0x06, 0, 0, 0⟩
  | .erase => ⟨w0OfOpcode 0x07, 0, 0, 0⟩
  | .getKeySize => ⟨w0OfOpcode 0x08, 0, 0, 0⟩
  | .getNonceSize => ⟨w0OfOpcode 0x09, 0, 0, 0⟩
  | .getWordSize => ⟨w0OfOpcode 0x0A, 0, 0, 0⟩
  | .getMacSize => ⟨w0OfOpcode 0x0B, 0, 0, 0⟩

/-- The descriptor a pseudo-instruction expands to (R72). A byte count whose bits do not fit a word is taken modulo
2^32 (log entry 8). -/
def expandPseudo : Pseudo → Descriptor
  | .setupNonce src => encode (.setupNonce src 128)
  | .setupKeyBytes m src bytes => encode (.setupKey m src (8 * bytes))
  | .processInPlace addr len => encode (.process addr addr len)
  | .word d => d

/-- The command in the serialised form of R70. -/
def encodeBytes (i : Instr) : List Byte := bytesOfDescriptor (encode i)

/-- The sixteen bytes of a descriptor whose bits are `w`, numbered as spec/opcode_table.json numbers them (bit 0 the
least significant bit of `W0`, each later word's bits counting on); the bits above `nbits` are 0. -/
def tableBytes (nbits w : Nat) : List Byte :=
  (List.range 16).map fun k => BitVec.ofNat 8 ((w % 2 ^ nbits) >>> (8 * k))

/-- The descriptor of an opcode-table word. -/
def tableDescriptor (nbits w : Nat) : Descriptor :=
  match descriptorOfBytes (tableBytes nbits w) with
  | some (d, _) => d
  | none => ⟨0, 0, 0, 0⟩

/-- The command the decoder reads from an opcode-table word, `none` where it refuses. -/
def decodeTableWord (nbits w : Nat) : Option Instr :=
  match decode (tableBytes nbits w) with
  | .ok (i, _) => some i
  | .error _ => none

end Sys2Proof
end

