-- ==== Sys2Proof/Config.lean ====
section
/-!
DEFINITION. What an implementation of ESJ-CORE fixes (spec/00_scope.md rule R5): the MAC-size strap and the platform
predicate `ADMIT`. Both are held by the state as plain data, so that every statement over all states covers every
choice of them. The numeric constants of R5, R82 and R91 stand in `Sys2Proof/Machine/Constants.lean`.
-/

namespace Sys2Proof

/-- The strap `MACSIZE`, which has exactly two legal values (R5, R191, U14). -/
inductive MacSize where
  /-- `MACSIZE = 96`. -/
  | mac96
  /-- `MACSIZE = 128`. -/
  | mac128
  deriving DecidableEq, Repr

/-- A run of backed buffer-memory addresses `base .. base + size - 1`. -/
structure Region where
  base : Nat
  size : Nat
  deriving DecidableEq, Repr

/-- The platform parameter `ADMIT` (R5, R47): which buffer-memory addresses are backed. Every predicate on the 2^32
addresses is a finite union of regions, so nothing R47 allows is lost. -/
inductive Admit where
  /-- The default of R5: every address is backed. -/
  | every
  /-- Exactly the addresses that lie in one of the regions are backed. -/
  | regions (rs : List Region)
  deriving DecidableEq, Repr

end Sys2Proof
end

