-- ==== Sys2Proof/Machine/State.lean ====
section
/-!
DEFINITION. The state of ESJ-CORE (spec/10_state.md R10 to R33) as plain data: the fourteen registers of R10, the
two platform parameters (the strap `MACSIZE`, R19, and `ADMIT`, R47), the buffer memory (spec/20_memory.md R40), and
the two ends of the command port as the host sees them: what it will do next and the response words it has received.
-/

namespace Sys2Proof.Machine

/-- The five accumulator words `Z0 .. Z4` (R11), the only registers the mixing network computes on. -/
structure Acc where
  z0 : Word
  z1 : Word
  z2 : Word
  z3 : Word
  z4 : Word
  deriving DecidableEq, Repr

/-- The lifecycle register `PHASE` (R26); its values 6 and 7 are never produced. -/
inductive Phase where
  /-- 0: after the reset event, no key. -/
  | fresh
  /-- 1: `X0`, `KEYBITS`, `BUMP`, `MODE` valid, no nonce since that key setup. -/
  | keyReady
  /-- 2: nonce state derived, no `PROCESS` or `PROCESS_AAD` accepted since. -/
  | armed
  /-- 3: at least one `PROCESS` or `PROCESS_AAD` accepted in this session. -/
  | streaming
  /-- 4: `FINALIZE` accepted in this session. -/
  | finalized
  /-- 5: `ERASE` accepted, terminal until the reset event. -/
  | erased
  deriving DecidableEq, Repr

/-- What the host does next at the engine's boundary. The list of these is the host's side of R202 (a program is a
finite list of descriptors issued in order), with the two other things the spec lets the host do between commands
(own the buffer memory, R40, and raise the reset event, R190). -/
inductive HostEvent where
  /-- The host issues a descriptor (R60) and waits for its response (R193). -/
  | issue (d : Descriptor)
  /-- Between commands the host writes one byte of its buffer memory (R40, R53). -/
  | write (a : Word) (b : Byte)
  /-- The reset event with no command in flight (R190); the strap is sampled from `strap` (R191). -/
  | resetEvent (strap : MacSize)
  /-- The reset event while descriptor `d` is in flight, after `written` of its byte writes (R190): the command is
  abandoned without a response. -/
  | resetDuring (d : Descriptor) (written : Nat) (strap : MacSize)
  deriving DecidableEq, Repr

/-- Buffer memory: (address, byte) pairs in the canonical form `memWf` of Machine/Ops.lean. -/
abbrev Memory := List Host.Cell

/-- The machine. Register names are those of R10 in lower case. -/
structure State where
  /-- `Z[0..4]` (R11). -/
  z : Acc
  /-- `OLDZ[0..3]` (R13). -/
  oldz : Vector Word 4
  /-- `I`, the round counter (R20). -/
  i : Word
  /-- `AADLEN` (R21). -/
  aadLen : Counter64
  /-- `MSGLEN` (R22). -/
  msgLen : Counter64
  /-- `AADX`, the pending XOR (R23). -/
  aadx : Word
  /-- `X0[0..7]` (R14). -/
  x0 : Vector Word 8
  /-- `X1[0..7]` (R15). -/
  x1 : Vector Word 8
  /-- `KEYBITS`, 9 bits (R16). -/
  keyBits : BitVec 9
  /-- `BUMP` (R17). -/
  bump : Word
  /-- `MODE` (R18). -/
  mode : Mode
  /-- `N[0..3]`, the saved nonce (R24). -/
  n : Vector Word 4
  /-- `MACBUF[0..11]` (R25). -/
  macBuf : Vector Word 12
  /-- `PHASE` (R26). -/
  phase : Phase
  /-- The strap `MACSIZE` (R19, R191): sampled at the reset event, changed by no command. -/
  macSize : MacSize
  /-- The platform parameter `ADMIT` (R47): changed by nothing. -/
  backed : Admit
  /-- Buffer memory (R40): the host's, touched by `ERASE` and the reset event in no byte. -/
  mem : Memory
  /-- The model's own: what the host will do next, in order (R202). Each step takes the first. -/
  inputs : List HostEvent
  /-- The model's own: the response words delivered so far, oldest first (R67, R202). No rule reads it. -/
  responses : List Word
  deriving DecidableEq, Repr

/-- Why the machine would stop with a fault. There is no reason: the spec's one exceptional event, the refused
command, is a completed step with a response word (R160, R168), an address that is not backed is answered
`BAD_ACCESS` (R47), and every behaviour the source leaves undefined is defined by the spec (93, Part 1). Safe. -/
inductive Fault where
  deriving DecidableEq, Repr

/-- Why the model would give no meaning. -/
inductive Refusal where
  /-- The instruction named has no meaning in the model. Raised only by an arm of `exec` that has none (there is
  none left). Safe: the run stops. -/
  | notModelled (mnemonic : String)
  deriving DecidableEq, Repr

/-- The machine right after the reset event (R33, R190): every register zero, `PHASE = Fresh`. The strap, `ADMIT` and
the buffer memory have no reset value in the spec (R33, R40, R47): the strap reads 128 (log entry 2), `ADMIT` is R5's
default (log entry 3), memory lists nothing (log entry 1), the host has nothing to do and has received nothing (log
entry 4). -/
def State.reset : State where
  z := ⟨0, 0, 0, 0, 0⟩
  oldz := Vector.replicate 4 0
  i := 0
  aadLen := 0
  msgLen := 0
  aadx := 0
  x0 := Vector.replicate 8 0
  x1 := Vector.replicate 8 0
  keyBits := 0
  bump := 0
  mode := .encrypt
  n := Vector.replicate 4 0
  macBuf := Vector.replicate 12 0
  phase := .fresh
  macSize := .mac128
  backed := .every
  mem := []
  inputs := []
  responses := []

end Sys2Proof.Machine
end

