-- ==== Sys2Proof/Machine/Constants.lean ====
section
/-!
DEFINITION. The named constants of ESJ-CORE: the table of spec/00_scope.md R5, the values of `MACSIZE`, the masks of
spec/40_mixing_primitives.md R90 and the two domain-separation constants of R91. (The ten rotation amounts of R82
stand where they are used, in `Sys2Proof/Machine/Mixing.lean`.)
-/

namespace Sys2Proof.Machine

/-- `MACSIZE` in bits: 96 or 128 (R5). -/
def macBits : MacSize → Nat
  | .mac96 => 96
  | .mac128 => 128

/-- `MAC_BYTES = MACSIZE/8` (R5). -/
def macBytes (m : MacSize) : Nat := macBits m / 8

/-- `MAC_WORDS = MACSIZE/32` (R5). -/
def macWords (m : MacSize) : Nat := macBits m / 32

/-- `WORD_BYTES` (R5). -/
def wordBytes : Nat := 4

/-- `KEY_MAX_BITS` (R5). -/
def keyMaxBits : Nat := 256

/-- `NONCE_BITS` (R5). -/
def nonceBits : Nat := 128

/-- `KS_SUBROUNDS` (R5). -/
def ksSubrounds : Nat := 8

/-- `INIT_ROUNDS` (R5). -/
def initRounds : Nat := 8

/-- `MAC_INIT_COUNT` (R5): the finaliser rounds whose output is discarded. -/
def macInitCount : Nat := 8

/-- `MAC_WORD_COUNT` (R5): the finaliser rounds whose output may be emitted. -/
def macWordCount : Nat := 4

/-- The size of the buffer-memory address space, 2^32 bytes (R5 `ADDR_BITS`, R40). -/
def addrSpace : Nat := 2 ^ 32

/-- `AAD_MAGIC` (R91). UNVERIFIED: the spec marks the value as confirmed by no source vector (93 G7; log entry 6). -/
def aadMagic : Word := 0xAADAADAA

/-- `MAC_MAGIC` (R91). -/
def macMagic : Word := 0x912D94F1

/-- `MASK(nb)`, the word `2^(8·nb) − 1` for `nb` in 1..4 (R7, R90). -/
def byteMask (nb : Nat) : Word := BitVec.ofNat 32 (2 ^ (8 * nb) - 1)

/-- The value of `PHASE` as the 3-bit register (R26). -/
def phaseCode : Phase → BitVec 3
  | .fresh => 0
  | .keyReady => 1
  | .armed => 2
  | .streaming => 3
  | .finalized => 4
  | .erased => 5

end Sys2Proof.Machine
end

