-- ==== Sys2Proof/Machine/Ops.lean ====
section
/-!
DEFINITION. The operations every command is built from: buffer memory (spec/20_memory.md R40 to R44), the response
word and its delivery (spec/30_encoding.md R67 to R69), the one exceptional event, the refused command
(spec/60_exceptions.md R160, R168; nothing is entered, so there is no return, R169), and the reset event
(spec/70_reset_and_hazards.md R190).
-/

namespace Sys2Proof.Machine

/-- What a byte of buffer memory that nothing has written reads as. DESIGN CHOICE: the spec gives buffer memory no
initial contents (log entry 1). -/
def unlistedByte : Byte := 0

/-- `MEM[a]` (R40, R49): the last value written to the cell. -/
def readByte : Memory → Nat → Byte
  | [], _ => unlistedByte
  | c :: m, a => if c.1 = a then c.2 else readByte m a

/-- A cell put in its place in a rising list. -/
def insertCell (c : Host.Cell) : Memory → Memory
  | [] => [c]
  | d :: m => if c.1 < d.1 then c :: d :: m else d :: insertCell c m

/-- The memory without any entry for an address. -/
def dropCell (m : Memory) (a : Nat) : Memory := m.filter fun c => c.1 != a

/-- `MEM[a] <- v` (R42, R49), keeping the canonical form: writing what an unlisted cell reads as removes the entry. -/
def writeByte (m : Memory) (a : Nat) (v : Byte) : Memory :=
  if v = unlistedByte then dropCell m a else insertCell (a, v) (dropCell m a)

/-- Every entry of the list lies at or above an address, the addresses strictly rise, they lie in the address space
(R40), and no entry is one an unlisted cell would read as. -/
def memWfFrom : Nat → Memory → Bool
  | _, [] => true
  | lo, c :: m => decide (lo ≤ c.1) && decide (c.1 < addrSpace) && c.2 != unlistedByte && memWfFrom (c.1 + 1) m

/-- The canonical form of buffer memory: equal memories are equal lists. -/
def memWf (m : Memory) : Bool := memWfFrom 0 m

/-- `MemRead(a, n)` (R7, R42): the bytes at `a, a+1, …` little-endian (R43), zero-extended to a word (R44). -/
def memRead (m : Memory) (a : Nat) : Nat → Word
  | 0 => 0
  | n + 1 => (readByte m a).setWidth 32 + (memRead m (a + 1) n <<< 8)

/-- `MemWrite(a, n, v)` (R7, R42): the low `n` bytes of `v` to `a, a+1, …` in that order, little-endian (R43). -/
def memWrite (m : Memory) (a : Nat) : Nat → Word → Memory
  | 0, _ => m
  | n + 1, v => memWrite (writeByte m a (v.extractLsb' 0 8)) (a + 1) n (v >>> 8)

/-- The bytes of `from_` at `a, a+1, …` copied over those of a memory, `n` of them. -/
def copyBytes (from_ : Memory) (a : Nat) : Nat → Memory → Memory
  | 0, m => m
  | n + 1, m => copyBytes from_ (a + 1) n (writeByte m a (readByte from_ a))

/-- The outcome field of a response (R69). -/
inductive Code where
  | ok
  | invalidKeySize
  | invalidNonceSize
  | misalignedData
  | badSequence
  | badCommand
  | badAccess
  deriving DecidableEq, Repr

/-- The `CODE` values of R69. -/
def codeBits : Code → BitVec 4
  | .ok => 0
  | .invalidKeySize => 1
  | .invalidNonceSize => 2
  | .misalignedData => 3
  | .badSequence => 4
  | .badCommand => 5
  | .badAccess => 6

/-- The response word `RSP` (R68): `CODE` in 3:0, `VAL` in 15:8, every other bit 0. -/
def responseWord (c : Code) (val : Byte) : Word := 0#16 ++ val ++ 0#4 ++ codeBits c

/-- Delivery of a response to the host (R67). -/
def deliver (rsp : Word) (s : State) : State := { s with responses := s.responses ++ [rsp] }

/-- `respond OK, val` (R7, R68): the command ends in the state it has reached. -/
def respondValue (val : Byte) (s : State) : Host.Outcome State Fault Refusal :=
  .next (deliver (responseWord .ok val) s)

/-- `respond OK` (R7, R68). -/
def respondOk (s : State) : Host.Outcome State Fault Refusal := respondValue 0 s

/-- `fail CODE` (R7, R160, R168), the machine's one exceptional event: the command has no effect but its response,
which is `CODE` with `VAL = 0`. Nothing is saved and nothing is entered; the next command starts from the same state
(R30, R169). `s` is the state the command started from. -/
def failCommand (c : Code) (s : State) : Host.Outcome State Fault Refusal :=
  .next (deliver (responseWord c 0) s)

/-- The reset event (R190): every register takes its value of R33 and the strap is sampled (R191); buffer memory,
`ADMIT` and the host's own side are not touched. -/
def applyReset (strap : MacSize) (s : State) : State :=
  { State.reset with
    macSize := strap, backed := s.backed, mem := s.mem, inputs := s.inputs, responses := s.responses }

end Sys2Proof.Machine
end

