-- ==== Sys2Proof/Machine/Flags.lean ====
section
/-!
DEFINITION. ESJ-CORE has no condition codes (spec/10_state.md R30). What plays a flag's part: the legality of a
command in a phase (R27) and the derived predicates of R29.
-/

namespace Sys2Proof.Machine

/-- The row of R27's table for `SETUP_KEY`. -/
def legalSetupKey : Phase → Bool
  | .erased => false
  | _ => true

/-- The row of R27's table for `SETUP_NONCE`. -/
def legalSetupNonce : Phase → Bool
  | .fresh | .erased => false
  | _ => true

/-- The row of R27's table for `RESET`. -/
def legalReset : Phase → Bool
  | .fresh | .keyReady | .erased => false
  | _ => true

/-- The row of R27's table shared by `PROCESS_AAD`, `PROCESS` and `FINALIZE`. -/
def legalData : Phase → Bool
  | .armed | .streaming => true
  | _ => false

/-- `MsgBegun := (AADX = 0)` (R29). -/
def msgBegun (s : State) : Bool := s.aadx == 0#32

/-- `AadShort := (AADLEN mod 4 ≠ 0)` (R29). -/
def aadShort (s : State) : Bool := s.aadLen.toNat % 4 != 0

/-- `MsgShort := (MSGLEN mod 4 ≠ 0)` (R29). -/
def msgShort (s : State) : Bool := s.msgLen.toNat % 4 != 0

end Sys2Proof.Machine
end

