-- ==== Sys2Proof/Machine/Mixing.lean ====
section
/-!
DEFINITION. The mixing network and the word-round (spec/40_mixing_primitives.md R81 to R88). The rotation amounts are
R82's.
-/

namespace Sys2Proof.Machine

/-- `ROTL(x, n)` for `1 ≤ n ≤ 31` (R81). -/
def rotl (x : Word) (n : Nat) : Word := (x <<< n) ||| (x >>> (32 - n))

/-- Step 1 of `GA` (R83): the injected word is XORed into the value of `Z3` that is added, not into `Z3`. -/
def gaStep1 (p : Word) (z : Acc) : Acc := { z with z0 := z.z0 + (z.z3 ^^^ p), z3 := rotl z.z3 15 }
/-- Step 2 of `GA` (R83). -/
def gaStep2 (z : Acc) : Acc := { z with z1 := z.z1 + z.z4, z4 := rotl z.z4 25 }
/-- Step 3 of `GA` (R83). -/
def gaStep3 (z : Acc) : Acc := { z with z2 := z.z2 ^^^ z.z0, z0 := rotl z.z0 9 }
/-- Step 4 of `GA` (R83). -/
def gaStep4 (z : Acc) : Acc := { z with z3 := z.z3 ^^^ z.z1, z1 := rotl z.z1 10 }
/-- Step 5 of `GA` (R83). -/
def gaStep5 (z : Acc) : Acc := { z with z4 := z.z4 + z.z2, z2 := rotl z.z2 17 }

/-- The step group `GA(Z, p)` (R83). -/
def stepGroupA (p : Word) (z : Acc) : Acc := gaStep5 (gaStep4 (gaStep3 (gaStep2 (gaStep1 p z))))

/-- Step 1 of `GB` (R84): the schedule word is added to the value of `Z3` that is XORed, not to `Z3`. -/
def gbStep1 (x : Word) (z : Acc) : Acc := { z with z0 := z.z0 ^^^ (z.z3 + x), z3 := rotl z.z3 30 }
/-- Step 2 of `GB` (R84). -/
def gbStep2 (z : Acc) : Acc := { z with z1 := z.z1 ^^^ z.z4, z4 := rotl z.z4 13 }
/-- Step 3 of `GB` (R84). -/
def gbStep3 (z : Acc) : Acc := { z with z2 := z.z2 + z.z0, z0 := rotl z.z0 20 }
/-- Step 4 of `GB` (R84). -/
def gbStep4 (z : Acc) : Acc := { z with z3 := z.z3 + z.z1, z1 := rotl z.z1 11 }
/-- Step 5 of `GB` (R84). -/
def gbStep5 (z : Acc) : Acc := { z with z4 := z.z4 ^^^ z.z2, z2 := rotl z.z2 5 }

/-- The step group `GB(Z, x)` (R84). -/
def stepGroupB (x : Word) (z : Acc) : Acc := gbStep5 (gbStep4 (gbStep3 (gbStep2 (gbStep1 x z))))

/-- `H(Z, p, x)` (R85): `GA` with the data injection, then `GB` with the schedule injection. -/
def mix (p x : Word) (z : Acc) : Acc := stepGroupB x (stepGroupA p z)

/-- The kind of a word-round (R88). -/
inductive Kind where
  | aad
  | enc
  | dec
  deriving DecidableEq, Repr

/-- The kind `PROCESS` uses in a mode (R121). -/
def kindOfMode : Mode → Kind
  | .encrypt => .enc
  | .decrypt => .dec

/-- Schedule word `k mod 8` of `X0` or `X1` (R88). -/
def schedWord (x : Vector Word 8) (k : Nat) : Word := x[k % 8]'(Nat.mod_lt k (by decide))

/-- History slot `k mod 4` (R87). -/
def histWord (h : Vector Word 4) (k : Nat) : Word := h[k % 4]'(Nat.mod_lt k (by decide))

/-- The history buffer with slot `k mod 4` written (R88). -/
def histRetire (h : Vector Word 4) (k : Nat) (w : Word) : Vector Word 4 := h.set (k % 4) w (Nat.mod_lt k (by decide))

/-- The accumulators after the emit application of `H` in round `I` (R85, R88). -/
def emitAcc (s : State) : Acc := mix 0 (schedWord s.x0 s.i.toNat) s.z

/-- The keystream word of round `I` (R87). -/
def keystream (s : State) : Word := (emitAcc s).z4 + histWord s.oldz s.i.toNat

/-- The output word of a word-round (R88): input XOR keystream, masked to the valid bytes. -/
def outputWord (inw : Word) (nb : Nat) (s : State) : Word := (inw ^^^ keystream s) &&& byteMask nb

/-- The feedback word (R88, R126): always the plaintext (or the AAD) word. -/
def feedbackWord (inw : Word) (nb : Nat) (kind : Kind) (s : State) : Word :=
  match kind with
  | .aad => inw
  | .enc => inw
  | .dec => outputWord inw nb s

/-- The state after the absorb application of `H` with feedback word `fb`, the retire and the increment of `I`
(R88). -/
def absorb (fb : Word) (s : State) : State :=
  let z' := mix fb (schedWord s.x1 s.i.toNat + s.i) (emitAcc s)
  { s with z := z', oldz := histRetire s.oldz s.i.toNat z'.z4, i := s.i + 1 }

/-- `WordRound(inw, nb, kind)` (R88): the state after the round and the output word. -/
def wordRound (inw : Word) (nb : Nat) (kind : Kind) (s : State) : State × Word :=
  (absorb (feedbackWord inw nb kind s) s, outputWord inw nb s)

end Sys2Proof.Machine
end

