-- ==== Sys2Proof/Machine/Operands.lean ====
section
/-!
DEFINITION. The operand checks of the commands: admission of a buffer range (spec/20_memory.md R47) and the two size
checks (spec/60_exceptions.md R161, R162). Operand words are used as they are (spec/30_encoding.md R61).
-/

namespace Sys2Proof.Machine

/-- The address lies in the region. -/
def inRegion (r : Region) (a : Nat) : Bool := decide (r.base ≤ a) && decide (a < r.base + r.size)

/-- `ADMIT(a)` (R47): the platform backs the address. -/
def admits : Admit → Nat → Bool
  | .every, _ => true
  | .regions rs, a => rs.any fun r => inRegion r a

/-- `ADMIT(b)` for every `b` in `a .. a+n−1` (R47). -/
def admitsAll : Admit → Nat → Nat → Bool
  | .every, _, _ => true
  | .regions rs, a, n => (List.range n).all fun k => admits (.regions rs) (a + k)

/-- The range `(a, n)` is admitted (R47): it is empty, or it does not pass the top of the address space (computed
without truncation) and every byte of it is backed. -/
def rangeAdmitted (p : Admit) (a : Word) (n : Nat) : Bool :=
  n == 0 || (decide (a.toNat + n ≤ addrSpace) && admitsAll p a.toNat n)

/-- The size `SETUP_KEY` accepts (R100 check 2, R161): at most 256 bits and a whole number of bytes. -/
def keySizeValid (kbits : Word) : Bool := decide (kbits.toNat ≤ keyMaxBits) && kbits.toNat % 8 == 0

/-- The size `SETUP_NONCE` accepts (R104 check 2, R162): exactly 128 bits. -/
def nonceSizeValid (nbits : Word) : Bool := nbits.toNat == nonceBits

end Sys2Proof.Machine
end

