-- ==== Sys2Proof/Machine/Setup.lean ====
section
/-!
DEFINITION. The setup commands `SETUP_KEY`, `SETUP_NONCE` and `RESET` (spec/41_setup_commands.md R100 to R106).
-/

namespace Sys2Proof.Machine

/-- `KEYWORDS`, the number of key words that receive key bytes (spec/10_state.md R16): a function of `KEYBITS`, not
stored, and read by no rule. -/
def keyWords (kbits : BitVec 9) : Nat := (kbits.toNat + 31) / 32

/-- One byte of the key ORed into its place (R101): byte `b` goes to bits `8·(b mod 4)` of word `b / 4`. -/
def keyLoadByte (m : Memory) (src : Nat) (k : Vector Word 8) (b : Nat) : Vector Word 8 :=
  k.setIfInBounds (b / 4) (schedWord k (b / 4) ||| (memRead m (src + b) 1 <<< (8 * (b % 4))))

/-- The mask R101 applies to a partial top word. -/
def keyMaskTop (k : Vector Word 8) (kbits : Nat) : Vector Word 8 :=
  if kbits % 32 ≠ 0 then
    k.setIfInBounds (kbits / 32) (schedWord k (kbits / 32) &&& BitVec.ofNat 32 (2 ^ (kbits % 32) - 1))
  else k

/-- `KeyLoad(SRC, KBITS)` (R101): the key bytes in increasing address order into eight zeroed words. -/
def keyLoad (m : Memory) (src kbits : Nat) : Vector Word 8 :=
  keyMaskTop ((List.range (kbits / 8)).foldl (keyLoadByte m src) (Vector.replicate 8 0)) kbits

/-- The private five-word temporary of a sub-round (R103): words `a .. a+3` of the key array and the key length in
bytes plus 64. -/
def keyMixTemp (k : Vector Word 8) (a kbits : Nat) : Acc :=
  ⟨schedWord k a, schedWord k (a + 1), schedWord k (a + 2), schedWord k (a + 3), BitVec.ofNat 32 (kbits / 8 + 64)⟩

/-- The four low words of a temporary XORed into words `b .. b+3` of the key array (R103). -/
def keyMixFold (k : Vector Word 8) (b : Nat) (t : Acc) : Vector Word 8 :=
  (((k.setIfInBounds b (schedWord k b ^^^ t.z0)).setIfInBounds (b + 1) (schedWord k (b + 1) ^^^ t.z1)).setIfInBounds
    (b + 2) (schedWord k (b + 2) ^^^ t.z2)).setIfInBounds (b + 3) (schedWord k (b + 3) ^^^ t.z3)

/-- Sub-round `r` of the key mix (R103): two applications of `H` with no injection on the source slice, folded into
the opposite one. -/
def keyMixRound (kbits : Nat) (k : Vector Word 8) (r : Nat) : Vector Word 8 :=
  let a := 4 * (r % 2)
  keyMixFold k ((a + 4) % 8) (mix 0 0 (mix 0 0 (keyMixTemp k a kbits)))

/-- `KeyMix(K, KBITS)` (R103). -/
def keyMix (k : Vector Word 8) (kbits : Nat) : Vector Word 8 :=
  (List.range ksSubrounds).foldl (keyMixRound kbits) k

/-- The value of `BUMP` (R17, R102). -/
def bumpOf (kbits : Nat) (m : MacSize) : Word :=
  BitVec.ofNat 32 (kbits / 2) + (BitVec.ofNat 32 (macBits m % 128) <<< 8)

/-- The state `SETUP_KEY` reaches when it is accepted (R100, Effect). -/
def keyedState (mode : Mode) (src kbits : Word) (s : State) : State :=
  { s with
    mode := mode
    keyBits := BitVec.ofNat 9 kbits.toNat
    bump := bumpOf kbits.toNat s.macSize
    x0 := keyMix (keyLoad s.mem src.toNat kbits.toNat) kbits.toNat
    phase := .keyReady }

/-- `SETUP_KEY` (R100): the checks in their order, then the effect. -/
def execSetupKey (mode : Mode) (src kbits : Word) (s : State) : Host.Outcome State Fault Refusal :=
  if legalSetupKey s.phase = false then failCommand .badSequence s
  else if keySizeValid kbits = false then failCommand .invalidKeySize s
  else if rangeAdmitted s.backed src (kbits.toNat / 8) = false then failCommand .badAccess s
  else respondOk (keyedState mode src kbits s)

/-- The four nonce words at an address (R104): little-endian words at `SRC + 4k`. -/
def nonceWords (m : Memory) (src : Nat) : Vector Word 4 :=
  #v[memRead m src 4, memRead m (src + 4) 4, memRead m (src + 8) 4, memRead m (src + 12) 4]

/-- `X1` as `NonceInit` derives it (R105): `X1[k] = X0[k+4] + n`, `X1[k+4] = X0[k] + (k − n)`, then `BUMP` added to
words 1 and 5. -/
def deriveX1 (x0 : Vector Word 8) (bump : Word) (n : Vector Word 4) : Vector Word 8 :=
  #v[x0[4] + n[0], x0[5] + n[1] + bump, x0[6] + n[2], x0[7] + n[3],
     x0[0] + (0 - n[0]), x0[1] + (1 - n[1]) + bump, x0[2] + (2 - n[2]), x0[3] + (3 - n[3])]

/-- The accumulators as `NonceInit` seeds them (R105): `Z[k] = X0[k+3] ^ n`, `Z[4] = X0[7]`. -/
def seedAcc (x0 : Vector Word 8) (n : Vector Word 4) : Acc :=
  ⟨x0[3] ^^^ n[0], x0[4] ^^^ n[1], x0[5] ^^^ n[2], x0[6] ^^^ n[3], x0[7]⟩

/-- Round `r` of the initialiser (R105): two applications of `H`, then `Z[4]` into slot `r mod 4`. -/
def initRound (x0 x1 : Vector Word 8) (zh : Acc × Vector Word 4) (r : Nat) : Acc × Vector Word 4 :=
  let z' := mix 0 (schedWord x1 r + BitVec.ofNat 32 r) (mix 0 (schedWord x0 r) zh.1)
  (z', histRetire zh.2 r z'.z4)

/-- The accumulators and history after the eight initialiser rounds (R105). -/
def initRun (x0 x1 : Vector Word 8) (n : Vector Word 4) (hist : Vector Word 4) : Acc × Vector Word 4 :=
  (List.range initRounds).foldl (initRound x0 x1) (seedAcc x0 n, hist)

/-- `NonceInit()` (R105): reads `X0`, `BUMP`, `N`. -/
def nonceInit (s : State) : State :=
  let x1 := deriveX1 s.x0 s.bump s.n
  let zh := initRun s.x0 x1 s.n s.oldz
  { s with
    x1 := x1
    z := { zh.1 with z1 := zh.1.z1 ^^^ aadMagic }
    oldz := zh.2
    i := 8
    aadLen := 0
    msgLen := 0
    aadx := aadMagic }

/-- The state `SETUP_NONCE` reaches when it is accepted (R104, Effect). -/
def armedState (src : Word) (s : State) : State :=
  { nonceInit { s with n := nonceWords s.mem src.toNat } with phase := .armed }

/-- `SETUP_NONCE` (R104): the checks in their order, then the effect. -/
def execSetupNonce (src nbits : Word) (s : State) : Host.Outcome State Fault Refusal :=
  if legalSetupNonce s.phase = false then failCommand .badSequence s
  else if nonceSizeValid nbits = false then failCommand .invalidNonceSize s
  else if rangeAdmitted s.backed src 16 = false then failCommand .badAccess s
  else respondOk (armedState src s)

/-- `RESET` (R106): the initialiser again, from the saved nonce. -/
def execReset (s : State) : Host.Outcome State Fault Refusal :=
  if legalReset s.phase = false then failCommand .badSequence s
  else respondOk { nonceInit s with phase := .armed }

end Sys2Proof.Machine
end

