-- ==== Sys2Proof/Machine/Stream.lean ====
section
/-!
DEFINITION. The stream commands `PROCESS_AAD` and `PROCESS` (spec/42_stream_commands.md R120 to R128). Both loops run
one word-round per word of the range, `ceil(LEN/4)` of them (R89, R202), the last one short when `LEN mod 4 ≠ 0`
(R127).
-/

namespace Sys2Proof.Machine

/-- The number of word-rounds a data command of `len` bytes runs: `ceil(LEN/4)` (R89). -/
def wordCount (len : Nat) : Nat := (len + 3) / 4

/-- The loop of `PROCESS_AAD` (R120): `words` word-rounds over `rem` bytes from address `a`. -/
def absorbWords : (words a rem : Nat) → State → State
  | 0, _, _, s => s
  | words + 1, a, rem, s =>
    let nb := min rem wordBytes
    absorbWords words (a + nb) (rem - nb) (wordRound (memRead s.mem a nb) nb .aad s).1

/-- The state `PROCESS_AAD` reaches when it is accepted (R120, Effect). -/
def absorbedState (src len : Word) (s : State) : State :=
  absorbWords (wordCount len.toNat) src.toNat len.toNat
    { s with aadLen := s.aadLen + len.setWidth 64, phase := .streaming }

/-- `PROCESS_AAD` (R120): the checks in their order, then the effect. -/
def execProcessAad (src len : Word) (s : State) : Host.Outcome State Fault Refusal :=
  if legalData s.phase = false then failCommand .badSequence s
  else if msgBegun s then failCommand .misalignedData s
  else if aadShort s then failCommand .misalignedData s
  else if rangeAdmitted s.backed src len.toNat = false then failCommand .badAccess s
  else respondOk (absorbedState src len s)

/-- One word of `PROCESS` (R121, R48): the input word is read, the word-round run, the output word written. -/
def streamWord (kind : Kind) (a d nb : Nat) (s : State) : State :=
  let r := wordRound (memRead s.mem a nb) nb kind s
  { r.1 with mem := memWrite r.1.mem d nb r.2 }

/-- The loop of `PROCESS` (R121): `words` words over `rem` bytes from address `a` to address `d`. -/
def streamWords (kind : Kind) : (words a d rem : Nat) → State → State
  | 0, _, _, _, s => s
  | words + 1, a, d, rem, s =>
    let nb := min rem wordBytes
    streamWords kind words (a + nb) (d + nb) (rem - nb) (streamWord kind a d nb s)

/-- The bookkeeping of `PROCESS` before its first word (R121): the pending XOR is consumed, `LEN` is counted. -/
def messageStart (len : Word) (s : State) : State :=
  { s with
    z := { s.z with z1 := s.z.z1 ^^^ s.aadx }
    aadx := 0
    msgLen := s.msgLen + len.setWidth 64
    phase := .streaming }

/-- The state `PROCESS` reaches when it is accepted (R121, Effect). -/
def processedState (src dst len : Word) (s : State) : State :=
  streamWords (kindOfMode s.mode) (wordCount len.toNat) src.toNat dst.toNat len.toNat (messageStart len s)

/-- `PROCESS` (R121): the checks in their order, then the effect. -/
def execProcess (src dst len : Word) (s : State) : Host.Outcome State Fault Refusal :=
  if legalData s.phase = false then failCommand .badSequence s
  else if msgShort s then failCommand .misalignedData s
  else if (rangeAdmitted s.backed src len.toNat && rangeAdmitted s.backed dst len.toNat) = false then
    failCommand .badAccess s
  else respondOk (processedState src dst len s)

end Sys2Proof.Machine
end

