-- ==== Sys2Proof/Machine/Finish.lean ====
section
/-!
DEFINITION. `FINALIZE` and `ERASE` (spec/43_finalize_erase_query.md R140, R141).
-/

namespace Sys2Proof.Machine

/-- The XORs `FINALIZE` makes before its rounds (R140): the MAC constant into `Z0`, the two halves of `AADLEN` into
`Z4` and `Z2`, the pending XOR into `Z1`. -/
def macInject (s : State) : State :=
  { s with z :=
    { s.z with
      z0 := s.z.z0 ^^^ macMagic
      z4 := s.z.z4 ^^^ s.aadLen.extractLsb' 0 32
      z2 := s.z.z2 ^^^ s.aadLen.extractLsb' 32 32
      z1 := s.z.z1 ^^^ s.aadx } }

/-- The padding tag `MSGLEN mod 4` (R140), a word 0..3. -/
def padTag (s : State) : Word := BitVec.ofNat 32 (s.msgLen.toNat % 4)

/-- Finaliser round `t` (R140): a complete word-round on the padding tag, its output stored in `MACBUF[t]`. -/
def macRound (p : Word) (s : State) (t : Nat) : State :=
  let r := wordRound p 4 .enc s
  { r.1 with macBuf := r.1.macBuf.setIfInBounds t r.2 }

/-- The state after the XORs and the twelve finaliser rounds (R140). -/
def macRounds (s : State) : State :=
  (List.range (macInitCount + macWordCount)).foldl (macRound (padTag s)) (macInject s)

/-- The MAC words written out (R140): `MACBUF[8 + w]` at `DST + 4w` for `w` below `MAC_WORDS`. -/
def emitMac (dst : Nat) (s : State) : Memory :=
  (List.range (macWords s.macSize)).foldl
    (fun m w => memWrite m (dst + 4 * w) 4 (s.macBuf.getD (macInitCount + w) 0)) s.mem

/-- The state `FINALIZE` reaches when it is accepted (R140, Effect). -/
def finalizedState (dst : Word) (s : State) : State :=
  let t := macRounds s
  { t with mem := emitMac dst.toNat t, phase := .finalized }

/-- `FINALIZE` (R140): the checks in their order, then the effect. -/
def execFinalize (dst : Word) (s : State) : Host.Outcome State Fault Refusal :=
  if legalData s.phase = false then failCommand .badSequence s
  else if rangeAdmitted s.backed dst (macBytes s.macSize) = false then failCommand .badAccess s
  else respondOk (finalizedState dst s)

/-- The state `ERASE` reaches (R141, Effect): every register of R10 zero but `PHASE`. -/
def erasedState (s : State) : State :=
  { s with
    z := ⟨0, 0, 0, 0, 0⟩
    oldz := Vector.replicate 4 0
    x0 := Vector.replicate 8 0
    x1 := Vector.replicate 8 0
    n := Vector.replicate 4 0
    macBuf := Vector.replicate 12 0
    i := 0
    aadLen := 0
    msgLen := 0
    aadx := 0
    keyBits := 0
    bump := 0
    mode := .encrypt
    phase := .erased }

/-- `ERASE` (R141): accepted in every phase. -/
def execErase (s : State) : Host.Outcome State Fault Refusal := respondOk (erasedState s)

end Sys2Proof.Machine
end

