-- ==== Sys2Proof/Machine/Query.lean ====
section
/-!
DEFINITION. The four queries (spec/43_finalize_erase_query.md R142 to R145): accepted in every phase, they write no
register and no byte of memory.
-/

namespace Sys2Proof.Machine

/-- `GET_KEY_SIZE` (R142): the maximum key length in bytes. -/
def execGetKeySize (s : State) : Host.Outcome State Fault Refusal := respondValue (BitVec.ofNat 8 (keyMaxBits / 8)) s

/-- `GET_NONCE_SIZE` (R143): the nonce length in bytes. -/
def execGetNonceSize (s : State) : Host.Outcome State Fault Refusal := respondValue (BitVec.ofNat 8 (nonceBits / 8)) s

/-- `GET_WORD_SIZE` (R144): the alignment unit in bytes. -/
def execGetWordSize (s : State) : Host.Outcome State Fault Refusal := respondValue (BitVec.ofNat 8 wordBytes) s

/-- `GET_MAC_SIZE` (R145): the strap in bytes. -/
def execGetMacSize (s : State) : Host.Outcome State Fault Refusal :=
  respondValue (BitVec.ofNat 8 (macBytes s.macSize)) s

end Sys2Proof.Machine
end

