-- ==== Sys2Proof/Machine/Dispatch.lean ====
section
/-! DEFINITION. `exec` of spec/60_exceptions.md R180: one arm per command of spec/30_encoding.md R64. -/

namespace Sys2Proof.Machine

def exec (i : Instr) (s : State) : Host.Outcome State Fault Refusal :=
  match i with
  | .setupKey mode src kbits => Sys2Proof.Machine.execSetupKey mode src kbits s
  | .setupNonce src nbits => Sys2Proof.Machine.execSetupNonce src nbits s
  | .processAad src len => Sys2Proof.Machine.execProcessAad src len s
  | .process src dst len => Sys2Proof.Machine.execProcess src dst len s
  | .finalize dst => Sys2Proof.Machine.execFinalize dst s
  | .reset => Sys2Proof.Machine.execReset s
  | .erase => Sys2Proof.Machine.execErase s
  | .getKeySize => Sys2Proof.Machine.execGetKeySize s
  | .getNonceSize => Sys2Proof.Machine.execGetNonceSize s
  | .getWordSize => Sys2Proof.Machine.execGetWordSize s
  | .getMacSize => Sys2Proof.Machine.execGetMacSize s

end Sys2Proof.Machine
end

