-- ==== Sys2Proof/Machine/Port.lean ====
section
/-!
DEFINITION. The command port and the other things the host can do at the engine's boundary (spec/30_encoding.md R60,
R65, R67; spec/60_exceptions.md R165; spec/70_reset_and_hazards.md R190 to R193, R202).
-/

namespace Sys2Proof.Machine

/-- A descriptor executed to completion (R60, R167): one that does not decode is answered `BAD_COMMAND` in every
phase and has no other effect (R65, R165); any other runs its command. -/
def execDescriptor (d : Descriptor) (s : State) : Host.Outcome State Fault Refusal :=
  match decodeDescriptor d with
  | .error _ => failCommand .badCommand s
  | .ok i => exec i s

/-- The buffer range a command writes when it is accepted (R41): first address and number of bytes. -/
def storeRange : Instr → MacSize → Nat × Nat
  | .setupKey _ _ _, _ => (0, 0)
  | .setupNonce _ _, _ => (0, 0)
  | .processAad _ _, _ => (0, 0)
  | .process _ dst len, _ => (dst.toNat, len.toNat)
  | .finalize dst, m => (dst.toNat, macBytes m)
  | .reset, _ => (0, 0)
  | .erase, _ => (0, 0)
  | .getKeySize, _ => (0, 0)
  | .getNonceSize, _ => (0, 0)
  | .getWordSize, _ => (0, 0)
  | .getMacSize, _ => (0, 0)

/-- Buffer memory after the first `written` byte writes of a command (R190). A command writes each byte of its range
once, in increasing address order (R48), so these are the first bytes of the range as the completed command leaves
them; a refused command writes none (R168). DEDUCED (log entry 5). -/
def abandonedMem (d : Descriptor) (written : Nat) (s : State) : Memory :=
  match decodeDescriptor d with
  | .error _ => s.mem
  | .ok i =>
    match exec i s with
    | .next t => copyBytes t.mem (storeRange i s.macSize).1 (min written (storeRange i s.macSize).2) s.mem
    | .fault _ => s.mem
    | .refused _ => s.mem

/-- One thing the host does, at the state `s` in which it does it. -/
def handleEvent (e : HostEvent) (s : State) : Host.Outcome State Fault Refusal :=
  match e with
  | .issue d => execDescriptor d s
  | .write a b => .next { s with mem := writeByte s.mem a.toNat b }
  | .resetEvent strap => .next (applyReset strap s)
  | .resetDuring d written strap => .next (applyReset strap { s with mem := abandonedMem d written s })

/-- One step (R202): the host's next action is taken; where it has none the engine waits and holds its state (R179,
R190). -/
def stepPort (s : State) : Host.Outcome State Fault Refusal :=
  match s.inputs with
  | [] => .next s
  | e :: rest => handleEvent e { s with inputs := rest }

/-- The state in which the host issues the descriptor next, before anything else it has to do. -/
def issueNext (d : Descriptor) (s : State) : State := { s with inputs := .issue d :: s.inputs }

end Sys2Proof.Machine
end

