-- ==== Sys2Proof/Machine/Step.lean ====
section
/-! DEFINITION. The machine's one step, and the placing of an opcode-table word where it takes its next command. -/

namespace Sys2Proof.Machine

/-- One step of the machine (spec/70_reset_and_hazards.md R202): `stepPort` of Machine/Port.lean. -/
def step (s : State) : Host.Outcome State Fault Refusal := stepPort s

/-- The state in which the very next step takes the command whose descriptor bits are `w`: the host issues that
descriptor next (commands arrive by value, spec/30_encoding.md R60; log entry 4). -/
def State.withFetchWord (s : State) (nbits w : Nat) : State := issueNext (tableDescriptor nbits w) s

end Sys2Proof.Machine
end

