-- ==== Sys2Proof/Safety.lean ====
section
/-!
DEFINITION. The terms in which statements speak of good states and of runs: the invariant of spec/10_state.md R31
(with the canonical form of memory), the registers whose values a later output can still depend on (R33,
spec/93_implementation_defined.md U9), and buffers placed so that a command does not read its own output
(spec/20_memory.md R57).
-/

namespace Sys2Proof.Machine

/-- The machine never stops: every number of steps ends in a state (R180, R202). -/
def NeverStops (s : State) : Prop := ∀ k, ∃ t, Host.Core.run Sys2Proof.core k s = .next t

/-- A session is open or closed, but its registers have been set by a nonce setup (R26). -/
def Sessioned (p : Phase) : Prop := p = .armed ∨ p = .streaming ∨ p = .finalized

/-- A key is in place (R26, R31 (b)). -/
def Keyed (p : Phase) : Prop := p = .keyReady ∨ Sessioned p

/-- The invariant of R31, clause by clause, with the canonical form of buffer memory. -/
structure Inv (s : State) : Prop where
  /-- The canonical form of buffer memory. -/
  memory : memWf s.mem = true
  /-- R31 (a). -/
  keyBits : s.keyBits.toNat ≤ 256 ∧ s.keyBits.toNat % 8 = 0
  /-- R31 (b): `BUMP = KEYBITS/2 + ((MACSIZE mod 128) << 8)`. -/
  bump : Keyed s.phase → s.bump = BitVec.ofNat 32 (s.keyBits.toNat / 2 + macBits s.macSize % 128 * 2 ^ 8)
  /-- R31 (c). -/
  aadx : s.aadx = 0 ∨ s.aadx = aadMagic
  /-- R31 (d). -/
  armed : s.phase = .armed → s.i = 8 ∧ s.aadLen = 0 ∧ s.msgLen = 0 ∧ s.aadx = aadMagic
  /-- R31 (e): in `Streaming`, `I` counts the words of both phases from 8 (modulo 2^32). -/
  streaming : s.phase = .streaming →
    s.i = BitVec.ofNat 32 (8 + (s.aadLen.toNat + 3) / 4 + (s.msgLen.toNat + 3) / 4)
  /-- R31 (f): in `Erased` every register other than `PHASE` is zero. -/
  erased : s.phase = .erased →
    s.z = ⟨0, 0, 0, 0, 0⟩ ∧ s.oldz = Vector.replicate 4 0 ∧ s.x0 = Vector.replicate 8 0 ∧ s.x1 = Vector.replicate 8 0 ∧
    s.n = Vector.replicate 4 0 ∧ s.macBuf = Vector.replicate 12 0 ∧ s.i = 0 ∧ s.aadLen = 0 ∧ s.msgLen = 0 ∧
    s.aadx = 0 ∧ s.keyBits = 0 ∧ s.bump = 0 ∧ s.mode = .encrypt
  /-- R128: while the XOR is pending no message byte has been counted. -/
  pending : Sessioned s.phase → s.aadx ≠ 0 → s.msgLen = 0
  /-- R105, R14, R15: in a session `X1` is what `X0`, `BUMP` and the saved nonce give. -/
  schedule : Sessioned s.phase → s.x1 = deriveX1 s.x0 s.bump s.n
  /-- R106: an `Armed` engine is what the initialiser makes of its key and nonce. -/
  initialised : s.phase = .armed → nonceInit s = s

/-- Two machines that agree in everything a later response, byte of memory or phase can depend on: `PHASE`, the two
parameters, memory, the host's side, and of the registers those that are still to be read before they are rewritten
(R33). `KEYBITS` and `MACBUF` are never among them. -/
structure SameLive (s t : State) : Prop where
  phase : s.phase = t.phase
  macSize : s.macSize = t.macSize
  backed : s.backed = t.backed
  mem : s.mem = t.mem
  inputs : s.inputs = t.inputs
  responses : s.responses = t.responses
  keyed : Keyed s.phase → s.x0 = t.x0 ∧ s.bump = t.bump ∧ s.mode = t.mode
  sessioned : Sessioned s.phase → s.n = t.n
  open_ : s.phase = .armed ∨ s.phase = .streaming →
    s.z = t.z ∧ s.oldz = t.oldz ∧ s.x1 = t.x1 ∧ s.i = t.i ∧ s.aadLen = t.aadLen ∧ s.msgLen = t.msgLen ∧ s.aadx = t.aadx

/-- Two machines that agree in the registers a data command computes with, but for `MODE` and memory (R125). -/
structure SameCipher (s t : State) : Prop where
  z : s.z = t.z
  oldz : s.oldz = t.oldz
  i : s.i = t.i
  x0 : s.x0 = t.x0
  x1 : s.x1 = t.x1
  aadx : s.aadx = t.aadx

/-- `PROCESS` with these buffers never reads a byte it has written (R57 (a), (b), or disjoint ranges). -/
def NoForwardOverlap (src dst : Word) (len : Nat) : Prop := dst.toNat ≤ src.toNat ∨ src.toNat + len ≤ dst.toNat

end Sys2Proof.Machine
end

