-- ==== Sys2Proof/Certificates/Slice0/Obligations.lean ====
section
/-!
DEFINITION. The statements about ESJ-CORE for the provers. Each docstring names the rule of spec/ it formalises, or
the log entry where a clause rests on a choice of the model.
-/

open Sys2Proof Sys2Proof.Machine

/-! Encoding. -/

/-- Decode and encode agree on the serialised form of R70: every well-formed command, with every operand value,
written as sixteen bytes and followed by any bytes, is read back as itself and the bytes after it. -/
def Obligations.DecodeOfEncodedBytes : Prop :=
  ∀ (i : Instr) (rest : List Byte), i.wellFormed = true → decode (encodeBytes i ++ rest) = .ok (i, rest)

/-- R64: a descriptor decodes to the row whose `match` is `W0 & mask`, and to nothing when there is no such row; the
operand words are those R62 names. -/
def Obligations.OpcodeMapDecodes : Prop :=
  ∀ d : Descriptor,
    (d.w0 &&& 0xFFFFFEFF#32 = 0x00000001#32 →
      decodeDescriptor d = .ok (.setupKey (if d.w0.getLsbD 8 then .decrypt else .encrypt) d.w1 d.w3)) ∧
    (d.w0 &&& 0xFFFFFFFF#32 = 0x00000002#32 → decodeDescriptor d = .ok (.setupNonce d.w1 d.w3)) ∧
    (d.w0 &&& 0xFFFFFFFF#32 = 0x00000003#32 → decodeDescriptor d = .ok (.processAad d.w1 d.w3)) ∧
    (d.w0 &&& 0xFFFFFFFF#32 = 0x00000004#32 → decodeDescriptor d = .ok (.process d.w1 d.w2 d.w3)) ∧
    (d.w0 &&& 0xFFFFFFFF#32 = 0x00000005#32 → decodeDescriptor d = .ok (.finalize d.w2)) ∧
    (d.w0 &&& 0xFFFFFFFF#32 = 0x00000006#32 → decodeDescriptor d = .ok .reset) ∧
    (d.w0 &&& 0xFFFFFFFF#32 = 0x00000007#32 → decodeDescriptor d = .ok .erase) ∧
    (d.w0 &&& 0xFFFFFFFF#32 = 0x00000008#32 → decodeDescriptor d = .ok .getKeySize) ∧
    (d.w0 &&& 0xFFFFFFFF#32 = 0x00000009#32 → decodeDescriptor d = .ok .getNonceSize) ∧
    (d.w0 &&& 0xFFFFFFFF#32 = 0x0000000A#32 → decodeDescriptor d = .ok .getWordSize) ∧
    (d.w0 &&& 0xFFFFFFFF#32 = 0x0000000B#32 → decodeDescriptor d = .ok .getMacSize) ∧
    (d.w0 &&& 0xFFFFFEFF#32 ≠ 0x00000001#32 ∧ ¬ (0x00000002#32 ≤ d.w0 ∧ d.w0 ≤ 0x0000000B#32) →
      ∃ e, decodeDescriptor d = .error e)

/-- Words of spec/96_test_vectors_2.md V50 and of the example of R70, read by the decoder. -/
def Obligations.SampleWordsDecode : Prop :=
  decodeTableWord 32 0x00000001 = some (.setupKey .encrypt 0 0) ∧
  decodeTableWord 32 0x00000101 = some (.setupKey .decrypt 0 0) ∧
  decodeTableWord 128 0x00000080000000000000020000000002 = some (.setupNonce 0x200 128) ∧
  decodeTableWord 128 0x0000000A000004000000030000000004 = some (.process 0x300 0x400 10) ∧
  decode [0x04, 0, 0, 0, 0x00, 0x03, 0, 0, 0x00, 0x04, 0, 0, 0x0A, 0, 0, 0] = .ok (.process 0x300 0x400 10, []) ∧
  decodeTableWord 32 0x00000000 = none ∧ decodeTableWord 32 0x0000000C = none ∧
  decodeTableWord 32 0x00000104 = none ∧ decodeTableWord 32 0x80000007 = none

/-- The ignored operand words of R62: two descriptors that agree in `W0` and in the operand words the command uses
are executed alike in every state. -/
def Obligations.IgnoredWordsHaveNoEffect : Prop :=
  ∀ (d e : Descriptor) (s : State), e.w0 = d.w0 →
    (d.opcode = 0x01#8 ∨ d.opcode = 0x02#8 ∨ d.opcode = 0x03#8 ∨ d.opcode = 0x04#8 → e.w1 = d.w1 ∧ e.w3 = d.w3) →
    (d.opcode = 0x04#8 ∨ d.opcode = 0x05#8 → e.w2 = d.w2) →
    decodeDescriptor e = decodeDescriptor d ∧ execDescriptor e s = execDescriptor d s

/-- R165: a descriptor that does not decode is answered `BAD_COMMAND` (`RSP = 5`) in every phase and before every
other check, and changes nothing; any other descriptor decodes. -/
def Obligations.BadCommandRefusal : Prop :=
  ∀ (d : Descriptor) (s : State),
    ((d.opcode = 0x00#8 ∨ 0x0B#8 < d.opcode) ∨ d.reserved ≠ 0#23 ∨ (d.modeBit = 1#1 ∧ d.opcode ≠ 0x01#8) →
      execDescriptor d s = .next { s with responses := s.responses ++ [0x00000005#32] }) ∧
    (¬ ((d.opcode = 0x00#8 ∨ 0x0B#8 < d.opcode) ∨ d.reserved ≠ 0#23 ∨ (d.modeBit = 1#1 ∧ d.opcode ≠ 0x01#8)) →
      ∃ i, decodeDescriptor d = .ok i)

/-! The step. -/

/-- A step runs the decoded command: where the host's next action is to issue a descriptor that decodes to a
well-formed command, the step is that command's `exec` in the state with the action taken off the host's list; and
the step after `withFetchWord` is the `exec` of the word's command. (That commands wait in a list is the model's
choice, log entry 4.) -/
def Obligations.StepRunsDecodedCommand : Prop :=
  (∀ (s : State) (d : Descriptor) (i : Instr) (rest : List HostEvent), s.inputs = .issue d :: rest →
    decodeDescriptor d = .ok i → i.wellFormed = true → step s = exec i { s with inputs := rest }) ∧
  (∀ (s : State) (nbits w : Nat) (i : Instr), decodeTableWord nbits w = some i → i.wellFormed = true →
    step (s.withFetchWord nbits w) = exec i s)

/-- Between commands (R40, R53, R179, R190; the list of host actions is log entry 4's, the write is stored whatever
`ADMIT` says by log entry 9, the idle step is log entry 11's): with nothing issued the engine
holds its state, and a host write changes the one byte and no register. -/
def Obligations.BetweenCommands : Prop :=
  (∀ s : State, s.inputs = [] → step s = .next s) ∧
  (∀ (s : State) (a : Word) (b : Byte) (rest : List HostEvent), s.inputs = .write a b :: rest →
    ∃ m, step s = .next { s with inputs := rest, mem := m } ∧
      ∀ c, readByte m c = if c = a.toNat then b else readByte s.mem c)

/-- R67: every descriptor produces exactly one response, and nothing else the host does produces one. (That what the
host does stands in a list is the model's choice, log entry 4.) -/
def Obligations.EveryDescriptorGetsOneResponse : Prop :=
  ∀ (s : State) (e : HostEvent) (rest : List HostEvent), s.inputs = e :: rest →
    ∃ t, step s = .next t ∧ t.inputs = rest ∧
      ((∃ d, e = .issue d) → ∃ rsp, t.responses = s.responses ++ [rsp]) ∧
      ((∀ d, e ≠ .issue d) → t.responses = s.responses)

/-- R168 (with R180's form of it): whenever a command's response has `CODE ≠ 0`, every register and every byte of
memory is as before, and `VAL` and the reserved bits are 0. -/
def Obligations.RefusedCommandChangesNothing : Prop :=
  ∀ (i : Instr) (s t : State) (rsp : Word), exec i s = .next t → t.responses = s.responses ++ [rsp] →
    rsp.extractLsb' 0 4 ≠ 0 →
    t = { s with responses := s.responses ++ [rsp] } ∧ rsp.extractLsb' 4 28 = 0

/-- No command changes the strap (R19, R191) or `ADMIT` (a platform parameter, R47; that it is fixed for a run is log
entry 3), and each adds exactly one response (R67) and leaves what the host has still to do. (That the host's actions
and the responses stand in lists of the state is the model's choice, log entry 4.) -/
def Obligations.CommandsKeepStrapAndPlatform : Prop :=
  ∀ (i : Instr) (s t : State), exec i s = .next t →
    t.macSize = s.macSize ∧ t.backed = s.backed ∧ t.inputs = s.inputs ∧ ∃ rsp, t.responses = s.responses ++ [rsp]

/-- R180, R202: every command is total, so the machine takes any number of steps from any state. -/
def Obligations.MachineNeverStops : Prop := ∀ s : State, NeverStops s

/-- R202: a program of `n` descriptors ends after `n` steps, all issued and `n` responses delivered, in order after
those already there. (That the program waits in a list of the state is the model's choice, log entry 4.) -/
def Obligations.ProgramDeliversItsResponses : Prop :=
  ∀ (ds : List Descriptor) (s : State), s.inputs = [] →
    ∃ t rsps, Host.Core.run core ds.length { s with inputs := ds.map .issue } = .next t ∧ t.inputs = [] ∧
      t.responses = s.responses ++ rsps ∧ rsps.length = ds.length

/-! Reset and the invariant. -/

/-- The invariant of R31 holds at reset. -/
def Obligations.ResetSatisfiesInvariant : Prop := Inv State.reset

/-- The invariant of R31 (and the canonical form of memory, R105's schedule, R128's pending rule) is kept by every
step from every state that meets it: by every command, every refused or illegal descriptor, every host write and
every reset event. -/
def Obligations.StepKeepsInvariant : Prop := ∀ s t : State, Inv s → step s = .next t → Inv t

/-- The reset values of R33's table (the strap's value at power-on is the model's choice, log entry 2, and is not
stated). -/
def Obligations.ResetLeavesEveryRegisterZero : Prop :=
  State.reset.phase = .fresh ∧ State.reset.z = ⟨0, 0, 0, 0, 0⟩ ∧ State.reset.oldz = Vector.replicate 4 0 ∧
  State.reset.x0 = Vector.replicate 8 0 ∧ State.reset.x1 = Vector.replicate 8 0 ∧
  State.reset.n = Vector.replicate 4 0 ∧ State.reset.macBuf = Vector.replicate 12 0 ∧ State.reset.i = 0 ∧
  State.reset.bump = 0 ∧ State.reset.aadx = 0 ∧ State.reset.aadLen = 0 ∧ State.reset.msgLen = 0 ∧
  State.reset.keyBits = 0 ∧ State.reset.mode = .encrypt

/-- R33, U9: no response and no byte written depends on what the registers hold before they are set. Two machines that
agree in what is still to be read stay so, and stay equal in phase, memory and responses, for ever; in `Fresh` and
`Erased` they need agree in no register at all. -/
def Obligations.UnsetRegistersNeverMatter : Prop :=
  (∀ s t : State, SameLive s t →
    ∃ s' t', step s = .next s' ∧ step t = .next t' ∧ SameLive s' t') ∧
  (∀ s t : State, s.phase = .fresh ∨ s.phase = .erased → t.phase = s.phase → t.macSize = s.macSize →
    t.backed = s.backed → t.mem = s.mem → t.inputs = s.inputs → t.responses = s.responses → SameLive s t)

/-- The reset event between commands (R190, R191; that it is an action in the host's list is log entry 4's): every
register takes its reset value, `PHASE = Fresh`, the strap is
sampled, buffer memory is not touched. -/
def Obligations.ResetEventSetsRegisters : Prop :=
  ∀ (s : State) (strap : MacSize) (rest : List HostEvent), s.inputs = .resetEvent strap :: rest →
    step s = .next { State.reset with
      macSize := strap, backed := s.backed, mem := s.mem, inputs := rest, responses := s.responses }

/-- The reset event during a `PROCESS` (R190): no response is delivered, every register is reset, the strap is sampled,
and the first `written` bytes of the destination range stand in memory as the completed command leaves them (as they
were, where it would have been refused), every other byte as before. (That the bytes written so far are the first ones
is inferred from R48, log entry 5.) -/
def Obligations.ResetDuringProcess : Prop :=
  ∀ (s t u : State) (src dst len : Word) (written : Nat) (strap : MacSize) (rest : List HostEvent),
    s.inputs = .resetDuring (encode (.process src dst len)) written strap :: rest →
    exec (.process src dst len) { s with inputs := rest } = .next t → step s = .next u →
    u = { State.reset with
      macSize := strap, backed := s.backed, mem := u.mem, inputs := rest, responses := s.responses } ∧
    ∀ a, readByte u.mem a =
      if dst.toNat ≤ a ∧ a < dst.toNat + min written len.toNat then readByte t.mem a else readByte s.mem a

/-- The reset event during any command but `PROCESS` (R190; which bytes were written is inferred from R48, log entry 5;
the list of actions is log entry 4's): the step answers, no response is delivered, every register is reset, the strap is
sampled; during `FINALIZE` the first `written` bytes of the MAC stand at `DST` as the completed command leaves them (as
they were, where it would have been refused), every other byte as before; during a command that writes no memory (R41),
or after a descriptor that does not decode (R65), memory is as before. -/
def Obligations.ResetDuringOtherCommands : Prop :=
  ∀ (s : State) (d : Descriptor) (written : Nat) (strap : MacSize) (rest : List HostEvent),
    s.inputs = .resetDuring d written strap :: rest →
    ∃ u, step s = .next u ∧
      u = { State.reset with
        macSize := strap, backed := s.backed, mem := u.mem, inputs := rest, responses := s.responses } ∧
      (∀ e, decodeDescriptor d = .error e → u.mem = s.mem) ∧
      (∀ i, decodeDescriptor d = .ok i → (∀ src dst len, i ≠ .process src dst len) → (∀ dst, i ≠ .finalize dst) →
        u.mem = s.mem) ∧
      (∀ dst t, decodeDescriptor d = .ok (.finalize dst) →
        exec (.finalize dst) { s with inputs := rest } = .next t →
        ∀ a, readByte u.mem a =
          if dst.toNat ≤ a ∧ a < dst.toNat + min written (macBits s.macSize / 8) then readByte t.mem a
          else readByte s.mem a)

/-! The mixing network and the word-round. -/

/-- R81: the formula of `ROTL`, the movement of each bit, a right rotation as a left one, and the rule's examples. -/
def Obligations.RotlMovesBits : Prop :=
  (∀ (x : Word) (n : Nat), 1 ≤ n → n ≤ 31 →
    rotl x n = ((x <<< n) ||| (x >>> (32 - n))) ∧
    (∀ k, k < 32 → (rotl x n).getLsbD ((k + n) % 32) = x.getLsbD k) ∧
    x.rotateRight n = rotl x (32 - n)) ∧
  rotl 0x80000001 1 = 0x00000003 ∧ rotl 0x12345678 15 = 0x2B3C091A ∧ rotl 0x12345678 30 = 0x048D159E ∧
  rotl 0x00000001 25 = 0x02000000 ∧ rotl 0xFFFFFFFF 9 = 0xFFFFFFFF

/-- R83, R84: the ten steps in their order, each on the values the steps before it left, with the rotation amounts of
R82's table. -/
def Obligations.StepGroupsComputeTheTenSteps : Prop :=
  (∀ p a b c d e : Word, stepGroupA p ⟨a, b, c, d, e⟩ =
    let a1 := a + (d ^^^ p)
    let d1 := rotl d 15
    let b1 := b + e
    let e1 := rotl e 25
    let c1 := c ^^^ a1
    let d2 := d1 ^^^ b1
    let e2 := e1 + c1
    ⟨rotl a1 9, rotl b1 10, rotl c1 17, d2, e2⟩) ∧
  (∀ x a b c d e : Word, stepGroupB x ⟨a, b, c, d, e⟩ =
    let a1 := a ^^^ (d + x)
    let d1 := rotl d 30
    let b1 := b ^^^ e
    let e1 := rotl e 13
    let c1 := c + a1
    let d2 := d1 + b1
    let e2 := e1 ^^^ c1
    ⟨rotl a1 20, rotl b1 11, rotl c1 5, d2, e2⟩)

/-- R86: (a) the all-zero state is a fixed point of `H` without injections; (b) for a fixed injection each step group
is a bijection on the five words; (c) the data word enters only through the value added to `Z0`, which is not the same
as XORing it into `Z3` beforehand. -/
def Obligations.MixingNetworkFacts : Prop :=
  mix 0 0 ⟨0, 0, 0, 0, 0⟩ = ⟨0, 0, 0, 0, 0⟩ ∧
  (∀ p, Function.Bijective (stepGroupA p)) ∧ (∀ x, Function.Bijective (stepGroupB x)) ∧
  (∀ p z, stepGroupA p z = stepGroupA 0 { z with z0 := z.z0 + (z.z3 ^^^ p) - z.z3 }) ∧
  (∃ p z, stepGroupA p z ≠ stepGroupA 0 { z with z3 := z.z3 ^^^ p })

/-- The word-round of R88 with the keystream word of R87, on every state, input, byte count and kind. -/
def Obligations.WordRoundEquations : Prop :=
  ∀ (inw : Word) (nb : Nat) (kind : Kind) (s : State),
    let emitted := mix 0 (s.x0[s.i.toNat % 8]'(Nat.mod_lt _ (by decide))) s.z
    let ks := emitted.z4 + s.oldz[s.i.toNat % 4]'(Nat.mod_lt _ (by decide))
    let outw := (inw ^^^ ks) &&& byteMask nb
    let fb := if kind = .dec then outw else inw
    let mixed := mix fb (s.x1[s.i.toNat % 8]'(Nat.mod_lt _ (by decide)) + s.i) emitted
    wordRound inw nb kind s =
      ({ s with z := mixed, oldz := s.oldz.set (s.i.toNat % 4) mixed.z4 (Nat.mod_lt _ (by decide)), i := s.i + 1 },
        outw)

/-- R126 and R127: the word fed back is the plaintext word in `enc` and in `dec` alike (the input of an encrypting
round, the output of the decrypting round on what it has put out), and it is zero above the valid bytes: both rounds
end in the absorb application of `H` on that word, so in the same state, and the decrypting one gives it back; an `aad`
round on the same word ends there too. -/
def Obligations.FeedbackIsThePlaintext : Prop :=
  ∀ (plain : Word) (nb : Nat) (s : State), 1 ≤ nb → nb ≤ 4 → plain &&& byteMask nb = plain →
    let emitted := mix 0 (s.x0[s.i.toNat % 8]'(Nat.mod_lt _ (by decide))) s.z
    let mixed := mix plain (s.x1[s.i.toNat % 8]'(Nat.mod_lt _ (by decide)) + s.i) emitted
    let after : State := { s with
      z := mixed, oldz := s.oldz.set (s.i.toNat % 4) mixed.z4 (Nat.mod_lt _ (by decide)), i := s.i + 1 }
    let cipher := (wordRound plain nb .enc s).2
    wordRound plain nb .enc s = (after, cipher) ∧ wordRound cipher nb .dec s = (after, plain) ∧
    (wordRound plain nb .aad s).1 = after ∧ cipher &&& byteMask nb = cipher

/-- R13: when a word-round reads its history slot, the slot holds the `Z4` retired four word-rounds earlier, whatever
the inputs and kinds of the rounds between. -/
def Obligations.HistorySlotIsFourRoundsOld : Prop :=
  ∀ (s : State) (w1 w2 w3 w4 : Word) (n1 n2 n3 n4 : Nat) (k1 k2 k3 k4 : Kind),
    let s1 := (wordRound w1 n1 k1 s).1
    let s2 := (wordRound w2 n2 k2 s1).1
    let s3 := (wordRound w3 n3 k3 s2).1
    let s4 := (wordRound w4 n4 k4 s3).1
    histWord s4.oldz s4.i.toNat = s1.z.z4 ∧ s4.i = s.i + 4

/-- The four values of `MASK` (R90). -/
def Obligations.ByteMasks : Prop :=
  byteMask 1 = 0x000000FF ∧ byteMask 2 = 0x0000FFFF ∧ byteMask 3 = 0x00FFFFFF ∧ byteMask 4 = 0xFFFFFFFF

/-! Buffer memory. -/

/-- The value `MemRead` returns (R42): the sum of the bytes, each shifted to its place, for each of the four
widths. -/
def Obligations.MemReadIsTheByteSum : Prop :=
  ∀ (m : Memory) (a : Nat),
    memRead m a 1 = (readByte m a).setWidth 32 ∧
    memRead m a 2 = (readByte m a).setWidth 32 + ((readByte m (a + 1)).setWidth 32 <<< 8) ∧
    memRead m a 3 = (readByte m a).setWidth 32 + ((readByte m (a + 1)).setWidth 32 <<< 8) +
      ((readByte m (a + 2)).setWidth 32 <<< 16) ∧
    memRead m a 4 = (readByte m a).setWidth 32 + ((readByte m (a + 1)).setWidth 32 <<< 8) +
      ((readByte m (a + 2)).setWidth 32 <<< 16) + ((readByte m (a + 3)).setWidth 32 <<< 24)

/-- A store then a load of the same bytes (R42, R44, R49): the low `n` bytes come back zero-extended, and a load that
meets none of them is not changed. -/
def Obligations.StoreThenLoad : Prop :=
  ∀ (m : Memory) (a n : Nat) (v : Word), n ≤ 4 →
    memRead (memWrite m a n v) a n = v &&& byteMask n ∧
    ∀ (b k : Nat), b + k ≤ a ∨ a + n ≤ b → memRead (memWrite m a n v) b k = memRead m b k

/-- Admission (R47): an empty range always, any other exactly when it does not pass 2^32 and every byte of it is
backed. -/
def Obligations.AdmissionIsExact : Prop :=
  ∀ (p : Admit) (a : Word) (n : Nat),
    (n = 0 → rangeAdmitted p a n = true) ∧
    (1 ≤ n → (rangeAdmitted p a n = true ↔
      a.toNat + n ≤ 2 ^ 32 ∧ ∀ b, a.toNat ≤ b → b ≤ a.toNat + n - 1 → admits p b = true))

/-! The setup commands. -/

/-- `SETUP_KEY` completes (R100): in every phase but `Erased`, with a size of at most 256 bits that is a whole number
of bytes and its range admitted, it sets `X0`, `KEYBITS`, `BUMP`, `MODE` and `PHASE`, answers `OK`, and leaves
everything else, every byte of memory included. -/
def Obligations.SetupKeyCompletes : Prop :=
  ∀ (mode : Mode) (src kbits : Word) (s : State),
    s.phase ≠ .erased → kbits.toNat ≤ 256 → kbits.toNat % 8 = 0 →
    rangeAdmitted s.backed src (kbits.toNat / 8) = true →
    exec (.setupKey mode src kbits) s = .next { s with
      x0 := keyMix (keyLoad s.mem src.toNat kbits.toNat) kbits.toNat
      keyBits := BitVec.ofNat 9 kbits.toNat
      bump := BitVec.ofNat 32 (kbits.toNat / 2) + (BitVec.ofNat 32 (macBits s.macSize % 128) <<< 8)
      mode := mode
      phase := .keyReady
      responses := s.responses ++ [0x00000000#32] }

/-- `KeyLoad` (R101): byte `j` of word `w` is key byte `4w + j` where the key has one, and zero above; so the final
mask never clears a loaded bit. -/
def Obligations.KeyLoadPlacesEachByte : Prop :=
  ∀ (m : Memory) (src kbits : Nat), kbits ≤ 256 → kbits % 8 = 0 →
    ∀ (w : Fin 8) (j : Nat), j < 4 →
      ((keyLoad m src kbits)[w]).extractLsb' (8 * j) 8 =
        if 4 * w.val + j < kbits / 8 then readByte m (src + 4 * w.val + j) else 0

/-- `KeyMix` (R103, `KS_SUBROUNDS` of R5): it is the sub-rounds 0, 1, …, 7 in that order, no more and no fewer; in each
the source slice is mixed twice with the key length in bytes plus 64 as fifth word, the four results are XORed into the
opposite slice, the source slice keeps its words. -/
def Obligations.KeyMixSubround : Prop :=
  (∀ (k : Vector Word 8) (kbits : Nat),
    keyMix k kbits = [0, 1, 2, 3, 4, 5, 6, 7].foldl (keyMixRound kbits) k) ∧
  ∀ (k : Vector Word 8) (kbits r : Nat), r < 8 →
    let t0 := mix 0 0 (mix 0 0 ⟨k[0], k[1], k[2], k[3], BitVec.ofNat 32 (kbits / 8 + 64)⟩)
    let t1 := mix 0 0 (mix 0 0 ⟨k[4], k[5], k[6], k[7], BitVec.ofNat 32 (kbits / 8 + 64)⟩)
    (r % 2 = 0 → keyMixRound kbits k r =
      #v[k[0], k[1], k[2], k[3], k[4] ^^^ t0.z0, k[5] ^^^ t0.z1, k[6] ^^^ t0.z2, k[7] ^^^ t0.z3]) ∧
    (r % 2 = 1 → keyMixRound kbits k r =
      #v[k[0] ^^^ t1.z0, k[1] ^^^ t1.z1, k[2] ^^^ t1.z2, k[3] ^^^ t1.z3, k[4], k[5], k[6], k[7]])

/-- R102: `BUMP` is half the key length in bits plus `(MACSIZE mod 128) << 8`, with the rule's two simpler forms and
its examples. -/
def Obligations.BumpValues : Prop :=
  (∀ kbits, kbits ≤ 256 → bumpOf kbits .mac128 = BitVec.ofNat 32 (kbits / 2) ∧
    bumpOf kbits .mac96 = BitVec.ofNat 32 (kbits / 2) + 0x00006000 ∧
    ∀ m, bumpOf kbits m = BitVec.ofNat 32 (kbits / 2) + (BitVec.ofNat 32 (macBits m % 128) <<< 8)) ∧
  bumpOf 0 .mac128 = 0x00000000 ∧ bumpOf 256 .mac128 = 0x00000080 ∧ bumpOf 128 .mac96 = 0x00006040 ∧
  bumpOf 40 .mac96 = 0x00006014

/-- `SETUP_KEY` is repeatable (R100, Corner cases): issued a second time with the same operands it changes nothing but
the responses. -/
def Obligations.SetupKeyRepeatable : Prop :=
  ∀ (mode : Mode) (src kbits : Word) (s t : State), exec (.setupKey mode src kbits) s = .next t →
    t.responses = s.responses ++ [0x00000000#32] →
    exec (.setupKey mode src kbits) t = .next { t with responses := t.responses ++ [0x00000000#32] }

/-- `SETUP_NONCE` completes (R104): after a key, with 128 bits and its range admitted, it saves the four nonce words,
derives the session's registers by `NonceInit`, enters `Armed` and answers `OK`; `X0`, `KEYBITS`, `BUMP`, `MODE`,
`MACBUF` and memory keep their values. -/
def Obligations.SetupNonceCompletes : Prop :=
  ∀ (src : Word) (s : State), s.phase ≠ .fresh → s.phase ≠ .erased → rangeAdmitted s.backed src 16 = true →
    ∃ t, exec (.setupNonce src 128) s = .next t ∧
      t = { nonceInit { s with n :=
              #v[memRead s.mem src.toNat 4, memRead s.mem (src.toNat + 4) 4, memRead s.mem (src.toNat + 8) 4,
                memRead s.mem (src.toNat + 12) 4] } with
            phase := .armed, responses := s.responses ++ [0x00000000#32] } ∧
      t.i = 8 ∧ t.aadLen = 0 ∧ t.msgLen = 0 ∧ t.aadx = aadMagic ∧
      t.x0 = s.x0 ∧ t.keyBits = s.keyBits ∧ t.bump = s.bump ∧ t.mode = s.mode ∧ t.macBuf = s.macBuf ∧ t.mem = s.mem

/-- `NonceInit` reads `X0`, `BUMP` and `N` only (R105): whatever the session registers held, the history buffer
included, it leaves the same ones. -/
def Obligations.NonceInitReadsOnlyKeyAndNonce : Prop :=
  ∀ s t : State, s.x0 = t.x0 → s.bump = t.bump → s.n = t.n →
    (nonceInit s).z = (nonceInit t).z ∧ (nonceInit s).oldz = (nonceInit t).oldz ∧
    (nonceInit s).x1 = (nonceInit t).x1 ∧ (nonceInit s).i = (nonceInit t).i ∧
    (nonceInit s).aadLen = (nonceInit t).aadLen ∧ (nonceInit s).msgLen = (nonceInit t).msgLen ∧
    (nonceInit s).aadx = (nonceInit t).aadx

/-- The schedule and the accumulators as `NonceInit` derives them (R105): the formulas of `X1` with `BUMP` in words 1
and 5, the eight initialiser rounds from the seeded accumulators, `AAD_MAGIC` into `Z1`. -/
def Obligations.NonceInitDerivesSchedule : Prop :=
  ∀ s : State,
    (∀ k : Fin 4,
      (nonceInit s).x1[k.val] = s.x0[k.val + 4] + s.n[k.val] + (if k.val = 1 then s.bump else 0) ∧
      (nonceInit s).x1[k.val + 4] =
        s.x0[k.val] + (BitVec.ofNat 32 k.val - s.n[k.val]) + (if k.val = 1 then s.bump else 0)) ∧
    (let x1 := (nonceInit s).x1
     let round := fun (z : Acc) (r : Fin 8) => mix 0 (x1[r.val] + BitVec.ofNat 32 r.val) (mix 0 s.x0[r.val] z)
     let z4 := round (round (round (round (round
       ⟨s.x0[3] ^^^ s.n[0], s.x0[4] ^^^ s.n[1], s.x0[5] ^^^ s.n[2], s.x0[6] ^^^ s.n[3], s.x0[7]⟩ 0) 1) 2) 3) 4
     let z5 := round z4 5
     let z6 := round z5 6
     let z7 := round z6 7
     (nonceInit s).z = { z7 with z1 := z7.z1 ^^^ aadMagic } ∧ (nonceInit s).oldz = #v[z4.z4, z5.z4, z6.z4, z7.z4])

/-- `RESET` completes (R106): in `Armed`, `Streaming` and `Finalized` it runs the initialiser from the saved nonce,
enters `Armed` and answers `OK`; `N`, `X0`, `KEYBITS`, `BUMP`, `MODE`, `MACBUF` and memory keep their values. -/
def Obligations.ResetCommandCompletes : Prop :=
  ∀ s : State, s.phase = .armed ∨ s.phase = .streaming ∨ s.phase = .finalized →
    ∃ t, exec .reset s = .next t ∧
      t = { nonceInit s with phase := .armed, responses := s.responses ++ [0x00000000#32] } ∧
      t.i = 8 ∧ t.aadLen = 0 ∧ t.msgLen = 0 ∧ t.aadx = aadMagic ∧ t.n = s.n ∧
      t.x0 = s.x0 ∧ t.keyBits = s.keyBits ∧ t.bump = s.bump ∧ t.mode = s.mode ∧ t.macBuf = s.macBuf ∧ t.mem = s.mem

/-- `RESET` is the last nonce setup again (R106): where the bytes at `SRC` are still the saved nonce, it and
`SETUP_NONCE` have the same effect. -/
def Obligations.ResetRepeatsNonceSetup : Prop :=
  ∀ (src : Word) (s : State), s.phase = .armed ∨ s.phase = .streaming ∨ s.phase = .finalized →
    rangeAdmitted s.backed src 16 = true →
    (∀ k : Fin 4, s.n[k.val] = memRead s.mem (src.toNat + 4 * k.val) 4) →
    exec .reset s = exec (.setupNonce src 128) s

/-- `RESET` in `Armed` is a no-op on every register (R106), in every state that meets the invariant. -/
def Obligations.ResetInArmedChangesNothing : Prop :=
  ∀ s : State, Inv s → s.phase = .armed →
    exec .reset s = .next { s with responses := s.responses ++ [0x00000000#32] }

/-! The stream commands. -/

/-- `PROCESS_AAD` completes (R120): its four checks passed, it runs one `aad` word-round per word in increasing
address order, counts `LEN` and the rounds, enters `Streaming` and answers `OK`; `AADX`, `MSGLEN`, the schedules and
every byte of memory keep their values. -/
def Obligations.ProcessAadCompletes : Prop :=
  ∀ (src len : Word) (s : State), s.phase = .armed ∨ s.phase = .streaming → s.aadx ≠ 0 → s.aadLen.toNat % 4 = 0 →
    rangeAdmitted s.backed src len.toNat = true →
    ∃ t, exec (.processAad src len) s = .next t ∧
      t = { (List.range ((len.toNat + 3) / 4)).foldl
              (fun u k => (wordRound (memRead s.mem (src.toNat + 4 * k) (min (len.toNat - 4 * k) 4))
                (min (len.toNat - 4 * k) 4) .aad u).1) s with
            aadLen := s.aadLen + len.setWidth 64, phase := .streaming,
            responses := s.responses ++ [0x00000000#32] } ∧
      t.i = s.i + BitVec.ofNat 32 ((len.toNat + 3) / 4) ∧ t.mem = s.mem ∧ t.aadx = s.aadx ∧ t.msgLen = s.msgLen ∧
      t.x0 = s.x0 ∧ t.x1 = s.x1 ∧ t.n = s.n ∧ t.keyBits = s.keyBits ∧ t.bump = s.bump ∧ t.mode = s.mode ∧
      t.macBuf = s.macBuf

/-- `PROCESS` completes (R121): its three checks passed, it consumes the pending XOR, runs one word-round per word in
the mode's kind, each word read before it is written (R48), counts `LEN` and the rounds, enters `Streaming` and
answers `OK`; it stores to `DST .. DST + LEN - 1` and nowhere else, and every other register keeps its value. -/
def Obligations.ProcessCompletes : Prop :=
  ∀ (src dst len : Word) (s : State), s.phase = .armed ∨ s.phase = .streaming → s.msgLen.toNat % 4 = 0 →
    rangeAdmitted s.backed src len.toNat = true → rangeAdmitted s.backed dst len.toNat = true →
    ∃ t, exec (.process src dst len) s = .next t ∧
      t = { (List.range ((len.toNat + 3) / 4)).foldl
              (fun u k =>
                let nb := min (len.toNat - 4 * k) 4
                let r := wordRound (memRead u.mem (src.toNat + 4 * k) nb) nb
                  (if s.mode = .encrypt then .enc else .dec) u
                { r.1 with mem := memWrite u.mem (dst.toNat + 4 * k) nb r.2 })
              { s with z := { s.z with z1 := s.z.z1 ^^^ s.aadx } } with
            aadx := 0, msgLen := s.msgLen + len.setWidth 64, phase := .streaming,
            responses := s.responses ++ [0x00000000#32] } ∧
      t.i = s.i + BitVec.ofNat 32 ((len.toNat + 3) / 4) ∧
      (∀ a, a < dst.toNat ∨ dst.toNat + len.toNat ≤ a → readByte t.mem a = readByte s.mem a) ∧
      t.aadLen = s.aadLen ∧ t.x0 = s.x0 ∧ t.x1 = s.x1 ∧ t.n = s.n ∧ t.keyBits = s.keyBits ∧ t.bump = s.bump ∧
      t.mode = s.mode ∧ t.macBuf = s.macBuf

/-- Chunking invariance of `PROCESS` (R124): one call of `len1 + len2` bytes and the two calls in turn, the first a
multiple of 4, end in the same registers and the same memory, whatever overlap the buffers have. -/
def Obligations.ChunkedProcessEqualsWhole : Prop :=
  ∀ (src dst len1 len2 : Word) (s : State), s.phase = .armed ∨ s.phase = .streaming → s.msgLen.toNat % 4 = 0 →
    len1.toNat % 4 = 0 → len1.toNat + len2.toNat < 2 ^ 32 →
    rangeAdmitted s.backed src (len1.toNat + len2.toNat) = true →
    rangeAdmitted s.backed dst (len1.toNat + len2.toNat) = true →
    ∃ t u v, exec (.process src dst (len1 + len2)) s = .next t ∧ exec (.process src dst len1) s = .next u ∧
      exec (.process (src + len1) (dst + len1) len2) u = .next v ∧
      t.responses = s.responses ++ [0x00000000#32] ∧
      v = { t with responses := s.responses ++ [0x00000000#32, 0x00000000#32] }

/-- Chunking invariance of `PROCESS_AAD` (R124). -/
def Obligations.ChunkedAadEqualsWhole : Prop :=
  ∀ (src len1 len2 : Word) (s : State), s.phase = .armed ∨ s.phase = .streaming → s.aadx ≠ 0 →
    s.aadLen.toNat % 4 = 0 → len1.toNat % 4 = 0 → len1.toNat + len2.toNat < 2 ^ 32 →
    rangeAdmitted s.backed src (len1.toNat + len2.toNat) = true →
    ∃ t u v, exec (.processAad src (len1 + len2)) s = .next t ∧ exec (.processAad src len1) s = .next u ∧
      exec (.processAad (src + len1) len2) u = .next v ∧
      t.responses = s.responses ++ [0x00000000#32] ∧
      v = { t with responses := s.responses ++ [0x00000000#32, 0x00000000#32] }

/-- The round trip (R125): an encrypting and a decrypting engine in the same cipher state, each with buffers that are
not overlapped forwards; where the decrypting one is given the ciphertext the encrypting one has written, it writes
the plaintext, and the two end in the same cipher state. (That their MACs then agree, given equal counters and straps,
is `MacIgnoresModeAndBuffers`.) -/
def Obligations.DecryptionInvertsEncryption : Prop :=
  ∀ (e d : State) (srcE dstE srcD dstD len : Word),
    SameCipher e d → e.mode = .encrypt → d.mode = .decrypt →
    e.phase = .armed ∨ e.phase = .streaming → d.phase = .armed ∨ d.phase = .streaming →
    e.msgLen.toNat % 4 = 0 → d.msgLen.toNat % 4 = 0 →
    rangeAdmitted e.backed srcE len.toNat = true → rangeAdmitted e.backed dstE len.toNat = true →
    rangeAdmitted d.backed srcD len.toNat = true → rangeAdmitted d.backed dstD len.toNat = true →
    NoForwardOverlap srcE dstE len.toNat → NoForwardOverlap srcD dstD len.toNat →
    ∃ e', exec (.process srcE dstE len) e = .next e' ∧
      ((∀ k, k < len.toNat → readByte d.mem (srcD.toNat + k) = readByte e'.mem (dstE.toNat + k)) →
        ∃ d', exec (.process srcD dstD len) d = .next d' ∧ SameCipher e' d' ∧
          ∀ k, k < len.toNat → readByte d'.mem (dstD.toNat + k) = readByte e.mem (srcE.toNat + k))

/-- R57 (a), (b): in place, or with the destination below the source, `PROCESS` writes the bytes and reaches the
registers that it does with a destination its source does not meet at all. -/
def Obligations.BackwardOverlapIsSafe : Prop :=
  ∀ (s : State) (src dst far len : Word), s.phase = .armed ∨ s.phase = .streaming → s.msgLen.toNat % 4 = 0 →
    rangeAdmitted s.backed src len.toNat = true → rangeAdmitted s.backed dst len.toNat = true →
    rangeAdmitted s.backed far len.toNat = true → dst.toNat ≤ src.toNat →
    far.toNat + len.toNat ≤ src.toNat ∨ src.toNat + len.toNat ≤ far.toNat →
    ∃ t u, exec (.process src dst len) s = .next t ∧ exec (.process src far len) s = .next u ∧
      t = { u with mem := t.mem } ∧
      ∀ k, k < len.toNat → readByte t.mem (dst.toNat + k) = readByte u.mem (far.toNat + k)

/-- R31 (g), R123 (a), R197: once a `PROCESS` has been accepted, no command of the same session changes `AADLEN` or
makes the XOR pending again, and every `PROCESS_AAD` is refused with `MISALIGNED_DATA`. -/
def Obligations.MessageClosesAadPhase : Prop :=
  (∀ (i : Instr) (s t : State), s.phase = .streaming → s.aadx = 0 → exec i s = .next t →
    t.phase = .streaming ∨ t.phase = .finalized → t.aadLen = s.aadLen ∧ t.aadx = 0) ∧
  (∀ (src dst len : Word) (s t : State), exec (.process src dst len) s = .next t →
    t.responses = s.responses ++ [0x00000000#32] → t.phase = .streaming ∧ t.aadx = 0) ∧
  (∀ (src len : Word) (s : State), s.phase = .streaming → s.aadx = 0 →
    exec (.processAad src len) s = .next { s with responses := s.responses ++ [0x00000003#32] })

/-- R128's table, in states that meet the invariant and with every range admitted: which of the two commands is
accepted and which answers `MISALIGNED_DATA`; an accepted `PROCESS` leaves nothing pending; `FINALIZE` is accepted in
all four rows. -/
def Obligations.DataAcceptanceTable : Prop :=
  ∀ (src dst len : Word) (s : State), Inv s → s.phase = .armed ∨ s.phase = .streaming →
    rangeAdmitted s.backed src len.toNat = true → rangeAdmitted s.backed dst len.toNat = true →
    rangeAdmitted s.backed dst (macBytes s.macSize) = true →
    ∃ a p f, exec (.processAad src len) s = .next a ∧ exec (.process src dst len) s = .next p ∧
      exec (.finalize dst) s = .next f ∧ f.responses = s.responses ++ [0x00000000#32] ∧
      (s.aadx ≠ 0 → s.msgLen.toNat % 4 = 0) ∧ p.aadx = 0 ∧
      a.responses = s.responses ++
        [if s.aadx ≠ 0 ∧ s.aadLen.toNat % 4 = 0 then 0x00000000#32 else 0x00000003#32] ∧
      p.responses = s.responses ++
        [if s.aadx ≠ 0 ∨ s.msgLen.toNat % 4 = 0 then 0x00000000#32 else 0x00000003#32]

/-! `FINALIZE`, `ERASE`, the queries. -/

/-- `FINALIZE` completes (R140): in `Armed` or `Streaming` with its range admitted it makes its XORs, runs twelve
word-rounds of kind `enc` on `MSGLEN mod 4`, writes `MACBUF[8 ..]` little-endian at `DST` (12 or 16 bytes) and nothing
else to memory, enters `Finalized` and answers `OK`; `AADX`, both counters, the schedules, `N`, `BUMP`, `MODE` and
`KEYBITS` keep their values. -/
def Obligations.FinalizeCompletes : Prop :=
  ∀ (dst : Word) (s : State), s.phase = .armed ∨ s.phase = .streaming →
    rangeAdmitted s.backed dst (macBits s.macSize / 8) = true →
    let p := BitVec.ofNat 32 (s.msgLen.toNat % 4)
    let start : State := { s with z :=
      ⟨s.z.z0 ^^^ 0x912D94F1#32, s.z.z1 ^^^ s.aadx, s.z.z2 ^^^ s.aadLen.extractLsb' 32 32, s.z.z3,
        s.z.z4 ^^^ s.aadLen.extractLsb' 0 32⟩ }
    let after := fun t : Nat => (fun u => (wordRound p 4 .enc u).1)^[t] start
    ∃ t, exec (.finalize dst) s = .next t ∧ t.phase = .finalized ∧ t.responses = s.responses ++ [0x00000000#32] ∧
      t.z = (after 12).z ∧ t.oldz = (after 12).oldz ∧ t.i = s.i + 12 ∧
      (∀ k : Fin 12, t.macBuf[k.val] = (wordRound p 4 .enc (after k.val)).2) ∧
      (∀ (w : Fin 4) (j : Nat), j < 4 → w.val < macBits s.macSize / 32 →
        readByte t.mem (dst.toNat + 4 * w.val + j) = t.macBuf[8 + w.val].extractLsb' (8 * j) 8) ∧
      (∀ a, a < dst.toNat ∨ dst.toNat + macBits s.macSize / 8 ≤ a → readByte t.mem a = readByte s.mem a) ∧
      t.aadx = s.aadx ∧ t.aadLen = s.aadLen ∧ t.msgLen = s.msgLen ∧ t.x0 = s.x0 ∧ t.x1 = s.x1 ∧ t.n = s.n ∧
      t.bump = s.bump ∧ t.mode = s.mode ∧ t.keyBits = s.keyBits

/-- Both sides compute the same MAC (R140, R125): the MAC depends on the cipher registers, the two counters and the
strap, not on `MODE` and not on what memory holds. -/
def Obligations.MacIgnoresModeAndBuffers : Prop :=
  ∀ (s t s' t' : State) (dst dst' : Word), SameCipher s t → s.aadLen = t.aadLen → s.msgLen = t.msgLen →
    s.macSize = t.macSize → s.phase = .armed ∨ s.phase = .streaming → t.phase = .armed ∨ t.phase = .streaming →
    rangeAdmitted s.backed dst (macBytes s.macSize) = true → rangeAdmitted t.backed dst' (macBytes t.macSize) = true →
    exec (.finalize dst) s = .next s' → exec (.finalize dst') t = .next t' →
    s'.macBuf = t'.macBuf ∧ SameCipher s' t' ∧
    ∀ k, k < macBytes s.macSize → readByte s'.mem (dst.toNat + k) = readByte t'.mem (dst'.toNat + k)

/-- The empty sessions agree (R140, Corner cases): from `Armed`, `FINALIZE` at once and `FINALIZE` after a zero-length
`PROCESS` write the same memory and leave the same accumulators, history and scratch array. -/
def Obligations.EmptySessionsAgree : Prop :=
  ∀ (s : State) (src dst mac : Word), s.phase = .armed → s.msgLen.toNat % 4 = 0 →
    rangeAdmitted s.backed mac (macBytes s.macSize) = true →
    ∃ t u v, exec (.finalize mac) s = .next t ∧ exec (.process src dst 0) s = .next u ∧
      exec (.finalize mac) u = .next v ∧ v.mem = t.mem ∧ v.macBuf = t.macBuf ∧ v.z = t.z ∧ v.oldz = t.oldz ∧
      t.aadx = s.aadx ∧ v.aadx = 0

/-- `ERASE` completes (R141), in every phase: every register of R10 but `PHASE` is zero, `PHASE = Erased`, the strap
and every byte of memory keep their values, and the answer is `OK`. -/
def Obligations.EraseZeroesEveryRegister : Prop :=
  ∀ s : State, exec .erase s = .next
    { z := ⟨0, 0, 0, 0, 0⟩, oldz := Vector.replicate 4 0, i := 0, aadLen := 0, msgLen := 0, aadx := 0,
      x0 := Vector.replicate 8 0, x1 := Vector.replicate 8 0, keyBits := 0, bump := 0, mode := .encrypt,
      n := Vector.replicate 4 0, macBuf := Vector.replicate 12 0, phase := .erased,
      macSize := s.macSize, backed := s.backed, mem := s.mem, inputs := s.inputs,
      responses := s.responses ++ [0x00000000#32] }

/-- R142 to R145: in every state each query answers its constant (`GET_MAC_SIZE` the strap) and changes nothing
else. -/
def Obligations.QueriesAnswer : Prop :=
  ∀ s : State,
    exec .getKeySize s = .next { s with responses := s.responses ++ [0x00002000#32] } ∧
    exec .getNonceSize s = .next { s with responses := s.responses ++ [0x00001000#32] } ∧
    exec .getWordSize s = .next { s with responses := s.responses ++ [0x00000400#32] } ∧
    (s.macSize = .mac96 → exec .getMacSize s = .next { s with responses := s.responses ++ [0x00000C00#32] }) ∧
    (s.macSize = .mac128 → exec .getMacSize s = .next { s with responses := s.responses ++ [0x00001000#32] })

/-! The refused commands. -/

/-- R164: the phases in which each command answers `BAD_SEQUENCE` (`RSP = 4`) and changes nothing, whatever its
operands; in every other phase it does not. -/
def Obligations.SequenceRefusals : Prop :=
  ∀ s : State,
    (∀ mode src kbits,
      exec (.setupKey mode src kbits) s = .next { s with responses := s.responses ++ [0x00000004#32] } ↔
        s.phase = .erased) ∧
    (∀ src nbits,
      exec (.setupNonce src nbits) s = .next { s with responses := s.responses ++ [0x00000004#32] } ↔
        s.phase = .fresh ∨ s.phase = .erased) ∧
    (exec .reset s = .next { s with responses := s.responses ++ [0x00000004#32] } ↔
      s.phase = .fresh ∨ s.phase = .keyReady ∨ s.phase = .erased) ∧
    (∀ i : Instr, (∃ src len, i = .processAad src len) ∨ (∃ src dst len, i = .process src dst len) ∨
        (∃ dst, i = .finalize dst) →
      (exec i s = .next { s with responses := s.responses ++ [0x00000004#32] } ↔
        s.phase = .fresh ∨ s.phase = .keyReady ∨ s.phase = .finalized ∨ s.phase = .erased)) ∧
    (∀ (i : Instr) (t : State), i = .erase ∨ i = .getKeySize ∨ i = .getNonceSize ∨ i = .getWordSize ∨ i = .getMacSize →
      exec i s = .next t → t.responses ≠ s.responses ++ [0x00000004#32])

/-- R161: past the phase check, `SETUP_KEY` answers `INVALID_KEY_SIZE` (`RSP = 1`) exactly when `KBITS > 256` or
`KBITS mod 8 ≠ 0`, and no other command ever does. -/
def Obligations.InvalidKeySizeRefusal : Prop :=
  (∀ (mode : Mode) (src kbits : Word) (s : State), s.phase ≠ .erased →
    ((kbits.toNat > 256 ∨ kbits.toNat % 8 ≠ 0) ↔
      exec (.setupKey mode src kbits) s = .next { s with responses := s.responses ++ [0x00000001#32] })) ∧
  (∀ (i : Instr) (s t : State), (∀ mode src kbits, i ≠ .setupKey mode src kbits) → exec i s = .next t →
    t.responses ≠ s.responses ++ [0x00000001#32])

/-- R162: past the phase check, `SETUP_NONCE` answers `INVALID_NONCE_SIZE` (`RSP = 2`) exactly when `NBITS ≠ 128`, and
no other command ever does. -/
def Obligations.InvalidNonceSizeRefusal : Prop :=
  (∀ (src nbits : Word) (s : State), s.phase ≠ .fresh → s.phase ≠ .erased →
    (nbits ≠ 128 ↔
      exec (.setupNonce src nbits) s = .next { s with responses := s.responses ++ [0x00000002#32] })) ∧
  (∀ (i : Instr) (s t : State), (∀ src nbits, i ≠ .setupNonce src nbits) → exec i s = .next t →
    t.responses ≠ s.responses ++ [0x00000002#32])

/-- R163: past the phase check (`Armed` or `Streaming`), `PROCESS_AAD` answers `MISALIGNED_DATA` (`RSP = 3`, nothing
changed) exactly when `AADX = 0` or `AADLEN mod 4 ≠ 0` and `PROCESS` exactly when `MSGLEN mod 4 ≠ 0`, whatever the
call's own length (zero included) and ranges; in the other phases neither does, and no other command ever does. -/
def Obligations.MisalignedDataRefusals : Prop :=
  (∀ (src dst len : Word) (s : State), s.phase = .armed ∨ s.phase = .streaming →
    ((s.aadx = 0 ∨ s.aadLen.toNat % 4 ≠ 0) ↔
      exec (.processAad src len) s = .next { s with responses := s.responses ++ [0x00000003#32] }) ∧
    (s.msgLen.toNat % 4 ≠ 0 ↔
      exec (.process src dst len) s = .next { s with responses := s.responses ++ [0x00000003#32] })) ∧
  (∀ (i : Instr) (s t : State),
    ((∀ src len, i ≠ .processAad src len) ∧ ∀ src dst len, i ≠ .process src dst len) ∨
      ¬ (s.phase = .armed ∨ s.phase = .streaming) →
    exec i s = .next t → t.responses ≠ s.responses ++ [0x00000003#32])

/-- The `BAD_ACCESS` cases of R166 (`RSP = 6`, nothing changed), each behind the checks that come before it
(R167). -/
def Obligations.BadAccessRefusals : Prop :=
  (∀ mode src kbits (s : State), s.phase ≠ .erased → kbits.toNat ≤ 256 → kbits.toNat % 8 = 0 →
    rangeAdmitted s.backed src (kbits.toNat / 8) = false →
    exec (.setupKey mode src kbits) s = .next { s with responses := s.responses ++ [0x00000006#32] }) ∧
  (∀ src (s : State), s.phase ≠ .fresh → s.phase ≠ .erased → rangeAdmitted s.backed src 16 = false →
    exec (.setupNonce src 128) s = .next { s with responses := s.responses ++ [0x00000006#32] }) ∧
  (∀ src len (s : State), s.phase = .armed ∨ s.phase = .streaming → s.aadx ≠ 0 → s.aadLen.toNat % 4 = 0 →
    rangeAdmitted s.backed src len.toNat = false →
    exec (.processAad src len) s = .next { s with responses := s.responses ++ [0x00000006#32] }) ∧
  (∀ src dst len (s : State), s.phase = .armed ∨ s.phase = .streaming → s.msgLen.toNat % 4 = 0 →
    rangeAdmitted s.backed src len.toNat = false ∨ rangeAdmitted s.backed dst len.toNat = false →
    exec (.process src dst len) s = .next { s with responses := s.responses ++ [0x00000006#32] }) ∧
  (∀ dst (s : State), s.phase = .armed ∨ s.phase = .streaming →
    rangeAdmitted s.backed dst (macBits s.macSize / 8) = false →
    exec (.finalize dst) s = .next { s with responses := s.responses ++ [0x00000006#32] })

/-- R171: `ERASE` and the four queries answer with `CODE = 0` in every state. -/
def Obligations.CommandsThatNeverFail : Prop :=
  ∀ (i : Instr) (s : State), i = .erase ∨ i = .getKeySize ∨ i = .getNonceSize ∨ i = .getWordSize ∨ i = .getMacSize →
    ∃ t rsp, exec i s = .next t ∧ t.responses = s.responses ++ [rsp] ∧ rsp.extractLsb' 0 4 = 0

/-- R180, R203: which response a command gives never depends on what buffer memory holds. -/
def Obligations.ResponseIgnoresMemory : Prop :=
  ∀ (i : Instr) (s : State) (m : Memory),
    ∃ t u, exec i s = .next t ∧ exec i { s with mem := m } = .next u ∧ t.responses = u.responses ∧ t.phase = u.phase
end

