-- ==== Sys2Proof/Laws/Memory.lean ====
section
/-! SUPPORT. Buffer memory (spec/20_memory.md R42 to R49): a read after a write, what a write leaves alone, and
the canonical form, which every operation keeps. -/

namespace Sys2Proof.Machine

theorem readByte_insertCell_same (c : Host.Cell) (m : Memory) (h : ∀ x ∈ m, x.1 ≠ c.1) :
    readByte (insertCell c m) c.1 = c.2 := by
  induction m with
  | nil => simp [insertCell, readByte]
  | cons d m ih =>
    have hd : d.1 ≠ c.1 := h d (by simp)
    have ih := ih fun x hx => h x (by simp [hx])
    simp only [insertCell]
    split <;> simp [readByte, hd, ih]

theorem readByte_insertCell_other (c : Host.Cell) (m : Memory) {a : Nat} (h : a ≠ c.1) :
    readByte (insertCell c m) a = readByte m a := by
  induction m with
  | nil => simp [insertCell, readByte, h.symm]
  | cons d m ih =>
    simp only [insertCell]
    split
    · simp [readByte, h.symm]
    · simp only [readByte, ih]

theorem readByte_dropCell_same (m : Memory) (a : Nat) : readByte (dropCell m a) a = unlistedByte := by
  induction m with
  | nil => rfl
  | cons d m ih =>
    by_cases hd : d.1 = a
    · simpa [dropCell, hd] using ih
    · simpa [dropCell, hd, readByte] using ih

theorem readByte_dropCell_other (m : Memory) {a b : Nat} (h : b ≠ a) : readByte (dropCell m a) b = readByte m b := by
  induction m with
  | nil => rfl
  | cons d m ih =>
    by_cases hd : d.1 = a
    · have hb : d.1 ≠ b := by omega
      simpa [dropCell, hd, readByte, hb, h.symm] using ih
    · by_cases hb : d.1 = b
      · simp [dropCell, readByte, hb, h]
      · simpa [dropCell, hd, readByte, hb] using ih

theorem not_mem_dropCell (m : Memory) (a : Nat) : ∀ x ∈ dropCell m a, x.1 ≠ a := by
  intro x hx
  simpa [dropCell] using (List.mem_filter.mp hx).2

/-- Reading a byte just written (R49). -/
@[simp] theorem readByte_writeByte_same (m : Memory) (a : Nat) (v : Byte) : readByte (writeByte m a v) a = v := by
  unfold writeByte
  split
  · rw [readByte_dropCell_same]; simp [*]
  · exact readByte_insertCell_same (a, v) _ (not_mem_dropCell m a)

/-- A byte write leaves every other cell alone (R49). -/
theorem readByte_writeByte_other (m : Memory) {a b : Nat} (v : Byte) (h : b ≠ a) :
    readByte (writeByte m a v) b = readByte m b := by
  unfold writeByte
  split
  · exact readByte_dropCell_other m h
  · rw [readByte_insertCell_other (a, v) _ h, readByte_dropCell_other m h]

/-- What one byte write can do, in one equation. -/
theorem readByte_writeByte (m : Memory) (a b : Nat) (v : Byte) :
    readByte (writeByte m a v) b = if b = a then v else readByte m b := by
  split
  · subst_vars; simp
  · exact readByte_writeByte_other m v ‹_›

/-! The canonical form. -/

theorem memWfFrom_mono {lo lo' : Nat} {m : Memory} (h : memWfFrom lo m = true) (hl : lo' ≤ lo) :
    memWfFrom lo' m = true := by
  cases m with
  | nil => rfl
  | cons c m =>
    simp only [memWfFrom, Bool.and_eq_true, decide_eq_true_eq] at h ⊢
    exact ⟨⟨⟨by omega, h.1.1.2⟩, h.1.2⟩, h.2⟩

theorem memWfFrom_dropCell {lo : Nat} {m : Memory} (a : Nat) (h : memWfFrom lo m = true) :
    memWfFrom lo (dropCell m a) = true := by
  induction m generalizing lo with
  | nil => rfl
  | cons c m ih =>
    simp only [memWfFrom, Bool.and_eq_true, decide_eq_true_eq] at h
    by_cases hc : c.1 = a
    · have : dropCell (c :: m) a = dropCell m a := by simp [dropCell, hc]
      rw [this]
      exact memWfFrom_mono (ih h.2) (by omega)
    · have : dropCell (c :: m) a = c :: dropCell m a := by simp [dropCell, hc]
      rw [this]
      simp only [memWfFrom, Bool.and_eq_true, decide_eq_true_eq]
      exact ⟨h.1, ih h.2⟩

theorem memWfFrom_insertCell {lo : Nat} {m : Memory} {c : Host.Cell} (h : memWfFrom lo m = true) (hlo : lo ≤ c.1)
    (ha : c.1 < addrSpace) (hv : c.2 ≠ unlistedByte) (hn : ∀ x ∈ m, x.1 ≠ c.1) :
    memWfFrom lo (insertCell c m) = true := by
  induction m generalizing lo with
  | nil => simp [insertCell, memWfFrom, hlo, ha, hv]
  | cons d m ih =>
    have hd : d.1 ≠ c.1 := hn d (by simp)
    have hm : ∀ x ∈ m, x.1 ≠ c.1 := fun x hx => hn x (by simp [hx])
    simp only [memWfFrom, Bool.and_eq_true, decide_eq_true_eq] at h
    simp only [insertCell]
    split
    · simp only [memWfFrom, Bool.and_eq_true, decide_eq_true_eq, bne_iff_ne]
      exact ⟨⟨⟨hlo, ha⟩, hv⟩, ⟨⟨by omega, h.1.1.2⟩, by simpa using h.1.2⟩, h.2⟩
    · simp only [memWfFrom, Bool.and_eq_true, decide_eq_true_eq]
      exact ⟨h.1, ih h.2 (by omega) hm⟩

/-- A byte write inside the address space keeps the canonical form. -/
theorem memWf_writeByte {m : Memory} {a : Nat} (v : Byte) (h : memWf m = true) (ha : a < addrSpace) :
    memWf (writeByte m a v) = true := by
  unfold writeByte
  split
  · exact memWfFrom_dropCell a h
  · exact memWfFrom_insertCell (memWfFrom_dropCell a h) (Nat.zero_le _) ha ‹_› (not_mem_dropCell m a)

/-! `MemWrite` and `MemRead`. -/

/-- What `MemWrite(a, n, v)` does (R42): cell `a + k` gets bits `8k+7..8k` of `v`, every other cell keeps its byte. -/
theorem readByte_memWrite (m : Memory) (a n : Nat) (v : Word) (b : Nat) :
    readByte (memWrite m a n v) b = if a ≤ b ∧ b < a + n then v.extractLsb' (8 * (b - a)) 8 else readByte m b := by
  induction n generalizing m a v with
  | zero => simp [memWrite]
  | succ n ih =>
    simp only [memWrite, ih]
    by_cases h1 : a + 1 ≤ b ∧ b < a + 1 + n
    · have h2 : a ≤ b ∧ b < a + (n + 1) := by omega
      rw [if_pos h1, if_pos h2]
      ext k hk
      have : 8 * (b - a) = 8 + 8 * (b - (a + 1)) := by omega
      simp [this, Nat.add_assoc]
    · rw [if_neg h1, readByte_writeByte]
      by_cases hb : b = a
      · subst hb; simp
      · rw [if_neg hb, if_neg (by omega)]

theorem memWf_memWrite {m : Memory} {a n : Nat} (v : Word) (h : memWf m = true) (ha : a + n ≤ addrSpace) :
    memWf (memWrite m a n v) = true := by
  induction n generalizing m a v with
  | zero => exact h
  | succ n ih => exact ih _ (memWf_writeByte _ h (by omega)) (by omega)

/-- `MemRead` depends only on the bytes of its range. -/
theorem memRead_congr {m m' : Memory} {a a' n : Nat} (h : ∀ k < n, readByte m (a + k) = readByte m' (a' + k)) :
    memRead m a n = memRead m' a' n := by
  induction n generalizing a a' with
  | zero => rfl
  | succ n ih =>
    have h0 : readByte m a = readByte m' a' := h 0 (by omega)
    have ih := ih (a := a + 1) (a' := a' + 1) fun k hk => by
      have := h (k + 1) (by omega)
      rwa [show a + (k + 1) = a + 1 + k by omega, show a' + (k + 1) = a' + 1 + k by omega] at this
    simp [memRead, h0, ih]

/-! Copying the first bytes of a range. -/

theorem readByte_copyBytes (src : Memory) (a n : Nat) (m : Memory) (b : Nat) :
    readByte (copyBytes src a n m) b = if a ≤ b ∧ b < a + n then readByte src b else readByte m b := by
  induction n generalizing a m with
  | zero => simp [copyBytes]
  | succ n ih =>
    simp only [copyBytes, ih, readByte_writeByte]
    by_cases hb : b = a
    · subst hb; simp
    · by_cases h1 : a + 1 ≤ b ∧ b < a + 1 + n
      · rw [if_pos h1, if_pos (by omega)]
      · rw [if_neg h1, if_neg hb, if_neg (by omega)]

/-- A memory in canonical form lists nothing outside the address space. -/
theorem readByte_of_memWfFrom {lo a : Nat} {m : Memory} (h : memWfFrom lo m = true) (ha : a < lo ∨ addrSpace ≤ a) :
    readByte m a = unlistedByte := by
  induction m generalizing lo with
  | nil => rfl
  | cons c m ih =>
    rw [memWfFrom, Bool.and_eq_true, Bool.and_eq_true, Bool.and_eq_true, decide_eq_true_eq, decide_eq_true_eq] at h
    rw [readByte, if_neg (by omega)]
    exact ih h.2 (by omega)

/-- Copying bytes out of a memory in canonical form keeps the canonical form. -/
theorem memWf_copyBytes {src m : Memory} {a n : Nat} (hs : memWf src = true) (h : memWf m = true) :
    memWf (copyBytes src a n m) = true := by
  induction n generalizing a m with
  | zero => exact h
  | succ n ih =>
    refine ih ?_
    by_cases ha : a < addrSpace
    · exact memWf_writeByte _ h ha
    · rw [readByte_of_memWfFrom hs (.inr (by omega)), writeByte, if_pos rfl]
      exact memWfFrom_dropCell a h

/-- The memory of the reset state has the canonical form. -/
theorem memWf_reset : memWf State.reset.mem = true := rfl

/-- Byte `k` of `MemRead(a, n)` (R42, R44): the byte at `a + k` for `k < n ≤ 4`, zero above. -/
theorem extractByte_memRead (m : Memory) (a n : Nat) (hn : n ≤ 4) (k : Nat) (hk : k < 4) :
    (memRead m a n).extractLsb' (8 * k) 8 = if k < n then readByte m (a + k) else 0 := by
  have hlow : ∀ (b : Byte) (w : Word), (b.setWidth 32 + (w <<< 8)) = (b.setWidth 32 ||| (w <<< 8)) := by
    intro b w
    apply BitVec.add_eq_or_of_and_eq_zero
    ext i hi
    simp only [BitVec.getElem_and, BitVec.getElem_setWidth, BitVec.getElem_shiftLeft, BitVec.getElem_zero]
    by_cases h : i < 8
    · simp [h]
    · simp [BitVec.getLsbD_of_ge b i (by omega)]
  induction n generalizing a k with
  | zero => simp [memRead]
  | succ n ih =>
    simp only [memRead, hlow]
    cases k with
    | zero => 
      ext i hi
      simp [hi]
      intro h; omega
    | succ k =>
      have ih := ih (a := a + 1) (by omega) k (by omega)
      have : ((readByte m a).setWidth 32 ||| memRead m (a + 1) n <<< 8).extractLsb' (8 * (k + 1)) 8
          = (memRead m (a + 1) n).extractLsb' (8 * k) 8 := by
        ext i hi
        have h1 : ¬ (8 * (k + 1) + i < 8) := by omega
        have h2 : 8 * (k + 1) + i - 8 = 8 * k + i := by omega
        have h3 : 8 * (k + 1) + i < 32 := by omega
        simp [h1, h2, h3, BitVec.getLsbD_of_ge (readByte m a) _ (show 8 ≤ 8 * (k + 1) + i by omega)]
        exact (BitVec.getLsbD_eq_getElem _).symm
      rw [this, ih]
      simp [Nat.add_assoc, Nat.add_comm 1 k]

end Sys2Proof.Machine
end

