-- ==== Sys2Proof/Laws/State.lean ====
section
/-! SUPPORT. One lemma per field per update of the state, so that no proof unfolds a record update. -/

namespace Sys2Proof.Machine

/-! `deliver`, field by field. -/

@[simp] theorem deliver_z (rsp : Word) (s : State) : (deliver rsp s).z = s.z := rfl
@[simp] theorem deliver_oldz (rsp : Word) (s : State) : (deliver rsp s).oldz = s.oldz := rfl
@[simp] theorem deliver_i (rsp : Word) (s : State) : (deliver rsp s).i = s.i := rfl
@[simp] theorem deliver_aadLen (rsp : Word) (s : State) : (deliver rsp s).aadLen = s.aadLen := rfl
@[simp] theorem deliver_msgLen (rsp : Word) (s : State) : (deliver rsp s).msgLen = s.msgLen := rfl
@[simp] theorem deliver_aadx (rsp : Word) (s : State) : (deliver rsp s).aadx = s.aadx := rfl
@[simp] theorem deliver_x0 (rsp : Word) (s : State) : (deliver rsp s).x0 = s.x0 := rfl
@[simp] theorem deliver_x1 (rsp : Word) (s : State) : (deliver rsp s).x1 = s.x1 := rfl
@[simp] theorem deliver_keyBits (rsp : Word) (s : State) : (deliver rsp s).keyBits = s.keyBits := rfl
@[simp] theorem deliver_bump (rsp : Word) (s : State) : (deliver rsp s).bump = s.bump := rfl
@[simp] theorem deliver_mode (rsp : Word) (s : State) : (deliver rsp s).mode = s.mode := rfl
@[simp] theorem deliver_n (rsp : Word) (s : State) : (deliver rsp s).n = s.n := rfl
@[simp] theorem deliver_macBuf (rsp : Word) (s : State) : (deliver rsp s).macBuf = s.macBuf := rfl
@[simp] theorem deliver_phase (rsp : Word) (s : State) : (deliver rsp s).phase = s.phase := rfl
@[simp] theorem deliver_macSize (rsp : Word) (s : State) : (deliver rsp s).macSize = s.macSize := rfl
@[simp] theorem deliver_admit (rsp : Word) (s : State) : (deliver rsp s).backed = s.backed := rfl
@[simp] theorem deliver_mem (rsp : Word) (s : State) : (deliver rsp s).mem = s.mem := rfl
@[simp] theorem deliver_inputs (rsp : Word) (s : State) : (deliver rsp s).inputs = s.inputs := rfl
@[simp] theorem deliver_responses (rsp : Word) (s : State) : (deliver rsp s).responses = s.responses ++ [rsp] := rfl

/-! `applyReset`, field by field. -/

@[simp] theorem applyReset_z (strap : MacSize) (s : State) : (applyReset strap s).z = State.reset.z := rfl
@[simp] theorem applyReset_oldz (strap : MacSize) (s : State) : (applyReset strap s).oldz = State.reset.oldz := rfl
@[simp] theorem applyReset_i (strap : MacSize) (s : State) : (applyReset strap s).i = State.reset.i := rfl
@[simp] theorem applyReset_aadLen (strap : MacSize) (s : State) : (applyReset strap s).aadLen = State.reset.aadLen := rfl
@[simp] theorem applyReset_msgLen (strap : MacSize) (s : State) : (applyReset strap s).msgLen = State.reset.msgLen := rfl
@[simp] theorem applyReset_aadx (strap : MacSize) (s : State) : (applyReset strap s).aadx = State.reset.aadx := rfl
@[simp] theorem applyReset_x0 (strap : MacSize) (s : State) : (applyReset strap s).x0 = State.reset.x0 := rfl
@[simp] theorem applyReset_x1 (strap : MacSize) (s : State) : (applyReset strap s).x1 = State.reset.x1 := rfl
@[simp] theorem applyReset_keyBits (strap : MacSize) (s : State) : (applyReset strap s).keyBits = State.reset.keyBits := rfl
@[simp] theorem applyReset_bump (strap : MacSize) (s : State) : (applyReset strap s).bump = State.reset.bump := rfl
@[simp] theorem applyReset_mode (strap : MacSize) (s : State) : (applyReset strap s).mode = State.reset.mode := rfl
@[simp] theorem applyReset_n (strap : MacSize) (s : State) : (applyReset strap s).n = State.reset.n := rfl
@[simp] theorem applyReset_macBuf (strap : MacSize) (s : State) : (applyReset strap s).macBuf = State.reset.macBuf := rfl
@[simp] theorem applyReset_phase (strap : MacSize) (s : State) : (applyReset strap s).phase = State.reset.phase := rfl
@[simp] theorem applyReset_macSize (strap : MacSize) (s : State) : (applyReset strap s).macSize = strap := rfl
@[simp] theorem applyReset_admit (strap : MacSize) (s : State) : (applyReset strap s).backed = s.backed := rfl
@[simp] theorem applyReset_mem (strap : MacSize) (s : State) : (applyReset strap s).mem = s.mem := rfl
@[simp] theorem applyReset_inputs (strap : MacSize) (s : State) : (applyReset strap s).inputs = s.inputs := rfl
@[simp] theorem applyReset_responses (strap : MacSize) (s : State) : (applyReset strap s).responses = s.responses := rfl

/-! `keyedState`, field by field. -/

@[simp] theorem keyedState_z (md : Mode) (src kbits : Word) (s : State) : (keyedState md src kbits s).z = s.z := by simp only [keyedState]
@[simp] theorem keyedState_oldz (md : Mode) (src kbits : Word) (s : State) : (keyedState md src kbits s).oldz = s.oldz := by simp only [keyedState]
@[simp] theorem keyedState_i (md : Mode) (src kbits : Word) (s : State) : (keyedState md src kbits s).i = s.i := by simp only [keyedState]
@[simp] theorem keyedState_aadLen (md : Mode) (src kbits : Word) (s : State) : (keyedState md src kbits s).aadLen = s.aadLen := by simp only [keyedState]
@[simp] theorem keyedState_msgLen (md : Mode) (src kbits : Word) (s : State) : (keyedState md src kbits s).msgLen = s.msgLen := by simp only [keyedState]
@[simp] theorem keyedState_aadx (md : Mode) (src kbits : Word) (s : State) : (keyedState md src kbits s).aadx = s.aadx := by simp only [keyedState]
@[simp] theorem keyedState_x0 (md : Mode) (src kbits : Word) (s : State) : (keyedState md src kbits s).x0 = keyMix (keyLoad s.mem src.toNat kbits.toNat) kbits.toNat := by simp only [keyedState]
@[simp] theorem keyedState_x1 (md : Mode) (src kbits : Word) (s : State) : (keyedState md src kbits s).x1 = s.x1 := by simp only [keyedState]
@[simp] theorem keyedState_keyBits (md : Mode) (src kbits : Word) (s : State) : (keyedState md src kbits s).keyBits = BitVec.ofNat 9 kbits.toNat := by simp only [keyedState]
@[simp] theorem keyedState_bump (md : Mode) (src kbits : Word) (s : State) : (keyedState md src kbits s).bump = bumpOf kbits.toNat s.macSize := by simp only [keyedState]
@[simp] theorem keyedState_mode (md : Mode) (src kbits : Word) (s : State) : (keyedState md src kbits s).mode = md := by simp only [keyedState]
@[simp] theorem keyedState_n (md : Mode) (src kbits : Word) (s : State) : (keyedState md src kbits s).n = s.n := by simp only [keyedState]
@[simp] theorem keyedState_macBuf (md : Mode) (src kbits : Word) (s : State) : (keyedState md src kbits s).macBuf = s.macBuf := by simp only [keyedState]
@[simp] theorem keyedState_phase (md : Mode) (src kbits : Word) (s : State) : (keyedState md src kbits s).phase = .keyReady := by simp only [keyedState]
@[simp] theorem keyedState_macSize (md : Mode) (src kbits : Word) (s : State) : (keyedState md src kbits s).macSize = s.macSize := by simp only [keyedState]
@[simp] theorem keyedState_admit (md : Mode) (src kbits : Word) (s : State) : (keyedState md src kbits s).backed = s.backed := by simp only [keyedState]
@[simp] theorem keyedState_mem (md : Mode) (src kbits : Word) (s : State) : (keyedState md src kbits s).mem = s.mem := by simp only [keyedState]
@[simp] theorem keyedState_inputs (md : Mode) (src kbits : Word) (s : State) : (keyedState md src kbits s).inputs = s.inputs := by simp only [keyedState]
@[simp] theorem keyedState_responses (md : Mode) (src kbits : Word) (s : State) : (keyedState md src kbits s).responses = s.responses := by simp only [keyedState]

/-! `nonceInit`, field by field. -/

@[simp] theorem nonceInit_oldz (s : State) : (nonceInit s).oldz = (initRun s.x0 (deriveX1 s.x0 s.bump s.n) s.n s.oldz).2 := rfl
@[simp] theorem nonceInit_i (s : State) : (nonceInit s).i = 8 := rfl
@[simp] theorem nonceInit_aadLen (s : State) : (nonceInit s).aadLen = 0 := rfl
@[simp] theorem nonceInit_msgLen (s : State) : (nonceInit s).msgLen = 0 := rfl
@[simp] theorem nonceInit_aadx (s : State) : (nonceInit s).aadx = aadMagic := rfl
@[simp] theorem nonceInit_x0 (s : State) : (nonceInit s).x0 = s.x0 := rfl
@[simp] theorem nonceInit_x1 (s : State) : (nonceInit s).x1 = deriveX1 s.x0 s.bump s.n := rfl
@[simp] theorem nonceInit_keyBits (s : State) : (nonceInit s).keyBits = s.keyBits := rfl
@[simp] theorem nonceInit_bump (s : State) : (nonceInit s).bump = s.bump := rfl
@[simp] theorem nonceInit_mode (s : State) : (nonceInit s).mode = s.mode := rfl
@[simp] theorem nonceInit_n (s : State) : (nonceInit s).n = s.n := rfl
@[simp] theorem nonceInit_macBuf (s : State) : (nonceInit s).macBuf = s.macBuf := rfl
@[simp] theorem nonceInit_phase (s : State) : (nonceInit s).phase = s.phase := rfl
@[simp] theorem nonceInit_macSize (s : State) : (nonceInit s).macSize = s.macSize := rfl
@[simp] theorem nonceInit_admit (s : State) : (nonceInit s).backed = s.backed := rfl
@[simp] theorem nonceInit_mem (s : State) : (nonceInit s).mem = s.mem := rfl
@[simp] theorem nonceInit_inputs (s : State) : (nonceInit s).inputs = s.inputs := rfl
@[simp] theorem nonceInit_responses (s : State) : (nonceInit s).responses = s.responses := rfl

/-! `armedState`, field by field. -/

@[simp] theorem armedState_i (src : Word) (s : State) : (armedState src s).i = 8 := rfl
@[simp] theorem armedState_aadLen (src : Word) (s : State) : (armedState src s).aadLen = 0 := rfl
@[simp] theorem armedState_msgLen (src : Word) (s : State) : (armedState src s).msgLen = 0 := rfl
@[simp] theorem armedState_aadx (src : Word) (s : State) : (armedState src s).aadx = aadMagic := rfl
@[simp] theorem armedState_x0 (src : Word) (s : State) : (armedState src s).x0 = s.x0 := rfl
@[simp] theorem armedState_x1 (src : Word) (s : State) : (armedState src s).x1 = deriveX1 s.x0 s.bump (nonceWords s.mem src.toNat) := rfl
@[simp] theorem armedState_keyBits (src : Word) (s : State) : (armedState src s).keyBits = s.keyBits := rfl
@[simp] theorem armedState_bump (src : Word) (s : State) : (armedState src s).bump = s.bump := rfl
@[simp] theorem armedState_mode (src : Word) (s : State) : (armedState src s).mode = s.mode := rfl
@[simp] theorem armedState_n (src : Word) (s : State) : (armedState src s).n = nonceWords s.mem src.toNat := rfl
@[simp] theorem armedState_macBuf (src : Word) (s : State) : (armedState src s).macBuf = s.macBuf := rfl
@[simp] theorem armedState_phase (src : Word) (s : State) : (armedState src s).phase = .armed := rfl
@[simp] theorem armedState_macSize (src : Word) (s : State) : (armedState src s).macSize = s.macSize := rfl
@[simp] theorem armedState_admit (src : Word) (s : State) : (armedState src s).backed = s.backed := rfl
@[simp] theorem armedState_mem (src : Word) (s : State) : (armedState src s).mem = s.mem := rfl
@[simp] theorem armedState_inputs (src : Word) (s : State) : (armedState src s).inputs = s.inputs := rfl
@[simp] theorem armedState_responses (src : Word) (s : State) : (armedState src s).responses = s.responses := rfl

/-! `absorb`, field by field. -/

@[simp] theorem absorb_z (fb : Word) (s : State) : (absorb fb s).z = mix fb (schedWord s.x1 s.i.toNat + s.i) (emitAcc s) := rfl
@[simp] theorem absorb_oldz (fb : Word) (s : State) : (absorb fb s).oldz = histRetire s.oldz s.i.toNat (absorb fb s).z.z4 := rfl
@[simp] theorem absorb_i (fb : Word) (s : State) : (absorb fb s).i = s.i + 1 := rfl
@[simp] theorem absorb_aadLen (fb : Word) (s : State) : (absorb fb s).aadLen = s.aadLen := rfl
@[simp] theorem absorb_msgLen (fb : Word) (s : State) : (absorb fb s).msgLen = s.msgLen := rfl
@[simp] theorem absorb_aadx (fb : Word) (s : State) : (absorb fb s).aadx = s.aadx := rfl
@[simp] theorem absorb_x0 (fb : Word) (s : State) : (absorb fb s).x0 = s.x0 := rfl
@[simp] theorem absorb_x1 (fb : Word) (s : State) : (absorb fb s).x1 = s.x1 := rfl
@[simp] theorem absorb_keyBits (fb : Word) (s : State) : (absorb fb s).keyBits = s.keyBits := rfl
@[simp] theorem absorb_bump (fb : Word) (s : State) : (absorb fb s).bump = s.bump := rfl
@[simp] theorem absorb_mode (fb : Word) (s : State) : (absorb fb s).mode = s.mode := rfl
@[simp] theorem absorb_n (fb : Word) (s : State) : (absorb fb s).n = s.n := rfl
@[simp] theorem absorb_macBuf (fb : Word) (s : State) : (absorb fb s).macBuf = s.macBuf := rfl
@[simp] theorem absorb_phase (fb : Word) (s : State) : (absorb fb s).phase = s.phase := rfl
@[simp] theorem absorb_macSize (fb : Word) (s : State) : (absorb fb s).macSize = s.macSize := rfl
@[simp] theorem absorb_admit (fb : Word) (s : State) : (absorb fb s).backed = s.backed := rfl
@[simp] theorem absorb_mem (fb : Word) (s : State) : (absorb fb s).mem = s.mem := rfl
@[simp] theorem absorb_inputs (fb : Word) (s : State) : (absorb fb s).inputs = s.inputs := rfl
@[simp] theorem absorb_responses (fb : Word) (s : State) : (absorb fb s).responses = s.responses := rfl

/-! `messageStart`, field by field. -/

@[simp] theorem messageStart_z (len : Word) (s : State) : (messageStart len s).z = { s.z with z1 := s.z.z1 ^^^ s.aadx } := rfl
@[simp] theorem messageStart_oldz (len : Word) (s : State) : (messageStart len s).oldz = s.oldz := rfl
@[simp] theorem messageStart_i (len : Word) (s : State) : (messageStart len s).i = s.i := rfl
@[simp] theorem messageStart_aadLen (len : Word) (s : State) : (messageStart len s).aadLen = s.aadLen := rfl
@[simp] theorem messageStart_msgLen (len : Word) (s : State) : (messageStart len s).msgLen = s.msgLen + len.setWidth 64 := rfl
@[simp] theorem messageStart_aadx (len : Word) (s : State) : (messageStart len s).aadx = 0 := rfl
@[simp] theorem messageStart_x0 (len : Word) (s : State) : (messageStart len s).x0 = s.x0 := rfl
@[simp] theorem messageStart_x1 (len : Word) (s : State) : (messageStart len s).x1 = s.x1 := rfl
@[simp] theorem messageStart_keyBits (len : Word) (s : State) : (messageStart len s).keyBits = s.keyBits := rfl
@[simp] theorem messageStart_bump (len : Word) (s : State) : (messageStart len s).bump = s.bump := rfl
@[simp] theorem messageStart_mode (len : Word) (s : State) : (messageStart len s).mode = s.mode := rfl
@[simp] theorem messageStart_n (len : Word) (s : State) : (messageStart len s).n = s.n := rfl
@[simp] theorem messageStart_macBuf (len : Word) (s : State) : (messageStart len s).macBuf = s.macBuf := rfl
@[simp] theorem messageStart_phase (len : Word) (s : State) : (messageStart len s).phase = .streaming := rfl
@[simp] theorem messageStart_macSize (len : Word) (s : State) : (messageStart len s).macSize = s.macSize := rfl
@[simp] theorem messageStart_admit (len : Word) (s : State) : (messageStart len s).backed = s.backed := rfl
@[simp] theorem messageStart_mem (len : Word) (s : State) : (messageStart len s).mem = s.mem := rfl
@[simp] theorem messageStart_inputs (len : Word) (s : State) : (messageStart len s).inputs = s.inputs := rfl
@[simp] theorem messageStart_responses (len : Word) (s : State) : (messageStart len s).responses = s.responses := rfl

/-! `streamWord`, field by field. -/

@[simp] theorem streamWord_i (kind : Kind) (a d nb : Nat) (s : State) : (streamWord kind a d nb s).i = s.i + 1 := rfl
@[simp] theorem streamWord_aadLen (kind : Kind) (a d nb : Nat) (s : State) : (streamWord kind a d nb s).aadLen = s.aadLen := rfl
@[simp] theorem streamWord_msgLen (kind : Kind) (a d nb : Nat) (s : State) : (streamWord kind a d nb s).msgLen = s.msgLen := rfl
@[simp] theorem streamWord_aadx (kind : Kind) (a d nb : Nat) (s : State) : (streamWord kind a d nb s).aadx = s.aadx := rfl
@[simp] theorem streamWord_x0 (kind : Kind) (a d nb : Nat) (s : State) : (streamWord kind a d nb s).x0 = s.x0 := rfl
@[simp] theorem streamWord_x1 (kind : Kind) (a d nb : Nat) (s : State) : (streamWord kind a d nb s).x1 = s.x1 := rfl
@[simp] theorem streamWord_keyBits (kind : Kind) (a d nb : Nat) (s : State) : (streamWord kind a d nb s).keyBits = s.keyBits := rfl
@[simp] theorem streamWord_bump (kind : Kind) (a d nb : Nat) (s : State) : (streamWord kind a d nb s).bump = s.bump := rfl
@[simp] theorem streamWord_mode (kind : Kind) (a d nb : Nat) (s : State) : (streamWord kind a d nb s).mode = s.mode := rfl
@[simp] theorem streamWord_n (kind : Kind) (a d nb : Nat) (s : State) : (streamWord kind a d nb s).n = s.n := rfl
@[simp] theorem streamWord_macBuf (kind : Kind) (a d nb : Nat) (s : State) : (streamWord kind a d nb s).macBuf = s.macBuf := rfl
@[simp] theorem streamWord_phase (kind : Kind) (a d nb : Nat) (s : State) : (streamWord kind a d nb s).phase = s.phase := rfl
@[simp] theorem streamWord_macSize (kind : Kind) (a d nb : Nat) (s : State) : (streamWord kind a d nb s).macSize = s.macSize := rfl
@[simp] theorem streamWord_admit (kind : Kind) (a d nb : Nat) (s : State) : (streamWord kind a d nb s).backed = s.backed := rfl
@[simp] theorem streamWord_mem (kind : Kind) (a d nb : Nat) (s : State) : (streamWord kind a d nb s).mem = memWrite s.mem d nb (outputWord (memRead s.mem a nb) nb s) := rfl
@[simp] theorem streamWord_inputs (kind : Kind) (a d nb : Nat) (s : State) : (streamWord kind a d nb s).inputs = s.inputs := rfl
@[simp] theorem streamWord_responses (kind : Kind) (a d nb : Nat) (s : State) : (streamWord kind a d nb s).responses = s.responses := rfl

/-! `macInject`, field by field. -/

@[simp] theorem macInject_oldz (s : State) : (macInject s).oldz = s.oldz := rfl
@[simp] theorem macInject_i (s : State) : (macInject s).i = s.i := rfl
@[simp] theorem macInject_aadLen (s : State) : (macInject s).aadLen = s.aadLen := rfl
@[simp] theorem macInject_msgLen (s : State) : (macInject s).msgLen = s.msgLen := rfl
@[simp] theorem macInject_aadx (s : State) : (macInject s).aadx = s.aadx := rfl
@[simp] theorem macInject_x0 (s : State) : (macInject s).x0 = s.x0 := rfl
@[simp] theorem macInject_x1 (s : State) : (macInject s).x1 = s.x1 := rfl
@[simp] theorem macInject_keyBits (s : State) : (macInject s).keyBits = s.keyBits := rfl
@[simp] theorem macInject_bump (s : State) : (macInject s).bump = s.bump := rfl
@[simp] theorem macInject_mode (s : State) : (macInject s).mode = s.mode := rfl
@[simp] theorem macInject_n (s : State) : (macInject s).n = s.n := rfl
@[simp] theorem macInject_macBuf (s : State) : (macInject s).macBuf = s.macBuf := rfl
@[simp] theorem macInject_phase (s : State) : (macInject s).phase = s.phase := rfl
@[simp] theorem macInject_macSize (s : State) : (macInject s).macSize = s.macSize := rfl
@[simp] theorem macInject_admit (s : State) : (macInject s).backed = s.backed := rfl
@[simp] theorem macInject_mem (s : State) : (macInject s).mem = s.mem := rfl
@[simp] theorem macInject_inputs (s : State) : (macInject s).inputs = s.inputs := rfl
@[simp] theorem macInject_responses (s : State) : (macInject s).responses = s.responses := rfl

/-! `macRound`, field by field. -/

@[simp] theorem macRound_i (p : Word) (s : State) (t : Nat) : (macRound p s t).i = s.i + 1 := rfl
@[simp] theorem macRound_aadLen (p : Word) (s : State) (t : Nat) : (macRound p s t).aadLen = s.aadLen := rfl
@[simp] theorem macRound_msgLen (p : Word) (s : State) (t : Nat) : (macRound p s t).msgLen = s.msgLen := rfl
@[simp] theorem macRound_aadx (p : Word) (s : State) (t : Nat) : (macRound p s t).aadx = s.aadx := rfl
@[simp] theorem macRound_x0 (p : Word) (s : State) (t : Nat) : (macRound p s t).x0 = s.x0 := rfl
@[simp] theorem macRound_x1 (p : Word) (s : State) (t : Nat) : (macRound p s t).x1 = s.x1 := rfl
@[simp] theorem macRound_keyBits (p : Word) (s : State) (t : Nat) : (macRound p s t).keyBits = s.keyBits := rfl
@[simp] theorem macRound_bump (p : Word) (s : State) (t : Nat) : (macRound p s t).bump = s.bump := rfl
@[simp] theorem macRound_mode (p : Word) (s : State) (t : Nat) : (macRound p s t).mode = s.mode := rfl
@[simp] theorem macRound_n (p : Word) (s : State) (t : Nat) : (macRound p s t).n = s.n := rfl
@[simp] theorem macRound_macBuf (p : Word) (s : State) (t : Nat) : (macRound p s t).macBuf = s.macBuf.setIfInBounds t (outputWord p 4 s) := rfl
@[simp] theorem macRound_phase (p : Word) (s : State) (t : Nat) : (macRound p s t).phase = s.phase := rfl
@[simp] theorem macRound_macSize (p : Word) (s : State) (t : Nat) : (macRound p s t).macSize = s.macSize := rfl
@[simp] theorem macRound_admit (p : Word) (s : State) (t : Nat) : (macRound p s t).backed = s.backed := rfl
@[simp] theorem macRound_mem (p : Word) (s : State) (t : Nat) : (macRound p s t).mem = s.mem := rfl
@[simp] theorem macRound_inputs (p : Word) (s : State) (t : Nat) : (macRound p s t).inputs = s.inputs := rfl
@[simp] theorem macRound_responses (p : Word) (s : State) (t : Nat) : (macRound p s t).responses = s.responses := rfl

/-! `erasedState`, field by field. -/

@[simp] theorem erasedState_z (s : State) : (erasedState s).z = State.reset.z := rfl
@[simp] theorem erasedState_oldz (s : State) : (erasedState s).oldz = State.reset.oldz := rfl
@[simp] theorem erasedState_i (s : State) : (erasedState s).i = State.reset.i := rfl
@[simp] theorem erasedState_aadLen (s : State) : (erasedState s).aadLen = State.reset.aadLen := rfl
@[simp] theorem erasedState_msgLen (s : State) : (erasedState s).msgLen = State.reset.msgLen := rfl
@[simp] theorem erasedState_aadx (s : State) : (erasedState s).aadx = State.reset.aadx := rfl
@[simp] theorem erasedState_x0 (s : State) : (erasedState s).x0 = State.reset.x0 := rfl
@[simp] theorem erasedState_x1 (s : State) : (erasedState s).x1 = State.reset.x1 := rfl
@[simp] theorem erasedState_keyBits (s : State) : (erasedState s).keyBits = State.reset.keyBits := rfl
@[simp] theorem erasedState_bump (s : State) : (erasedState s).bump = State.reset.bump := rfl
@[simp] theorem erasedState_mode (s : State) : (erasedState s).mode = State.reset.mode := rfl
@[simp] theorem erasedState_n (s : State) : (erasedState s).n = State.reset.n := rfl
@[simp] theorem erasedState_macBuf (s : State) : (erasedState s).macBuf = State.reset.macBuf := rfl
@[simp] theorem erasedState_phase (s : State) : (erasedState s).phase = .erased := rfl
@[simp] theorem erasedState_macSize (s : State) : (erasedState s).macSize = s.macSize := rfl
@[simp] theorem erasedState_admit (s : State) : (erasedState s).backed = s.backed := rfl
@[simp] theorem erasedState_mem (s : State) : (erasedState s).mem = s.mem := rfl
@[simp] theorem erasedState_inputs (s : State) : (erasedState s).inputs = s.inputs := rfl
@[simp] theorem erasedState_responses (s : State) : (erasedState s).responses = s.responses := rfl

/-! `issueNext`, field by field. -/

@[simp] theorem issueNext_z (d : Descriptor) (s : State) : (issueNext d s).z = s.z := rfl
@[simp] theorem issueNext_oldz (d : Descriptor) (s : State) : (issueNext d s).oldz = s.oldz := rfl
@[simp] theorem issueNext_i (d : Descriptor) (s : State) : (issueNext d s).i = s.i := rfl
@[simp] theorem issueNext_aadLen (d : Descriptor) (s : State) : (issueNext d s).aadLen = s.aadLen := rfl
@[simp] theorem issueNext_msgLen (d : Descriptor) (s : State) : (issueNext d s).msgLen = s.msgLen := rfl
@[simp] theorem issueNext_aadx (d : Descriptor) (s : State) : (issueNext d s).aadx = s.aadx := rfl
@[simp] theorem issueNext_x0 (d : Descriptor) (s : State) : (issueNext d s).x0 = s.x0 := rfl
@[simp] theorem issueNext_x1 (d : Descriptor) (s : State) : (issueNext d s).x1 = s.x1 := rfl
@[simp] theorem issueNext_keyBits (d : Descriptor) (s : State) : (issueNext d s).keyBits = s.keyBits := rfl
@[simp] theorem issueNext_bump (d : Descriptor) (s : State) : (issueNext d s).bump = s.bump := rfl
@[simp] theorem issueNext_mode (d : Descriptor) (s : State) : (issueNext d s).mode = s.mode := rfl
@[simp] theorem issueNext_n (d : Descriptor) (s : State) : (issueNext d s).n = s.n := rfl
@[simp] theorem issueNext_macBuf (d : Descriptor) (s : State) : (issueNext d s).macBuf = s.macBuf := rfl
@[simp] theorem issueNext_phase (d : Descriptor) (s : State) : (issueNext d s).phase = s.phase := rfl
@[simp] theorem issueNext_macSize (d : Descriptor) (s : State) : (issueNext d s).macSize = s.macSize := rfl
@[simp] theorem issueNext_admit (d : Descriptor) (s : State) : (issueNext d s).backed = s.backed := rfl
@[simp] theorem issueNext_mem (d : Descriptor) (s : State) : (issueNext d s).mem = s.mem := rfl
@[simp] theorem issueNext_inputs (d : Descriptor) (s : State) : (issueNext d s).inputs = .issue d :: s.inputs := rfl
@[simp] theorem issueNext_responses (d : Descriptor) (s : State) : (issueNext d s).responses = s.responses := rfl

end Sys2Proof.Machine
end

