-- ==== Sys2Proof/Laws/Loops.lean ====
section
/-! SUPPORT. What the word-round and the loops of the commands can do (spec/40_mixing_primitives.md R88,
spec/42_stream_commands.md R120 and R121, spec/43_finalize_erase_query.md R140), and admission (spec/20_memory.md R47). -/

namespace Sys2Proof.Machine

/-! The word-round. -/

@[simp] theorem wordRound_fst (inw : Word) (nb : Nat) (kind : Kind) (s : State) :
    (wordRound inw nb kind s).1 = absorb (feedbackWord inw nb kind s) s := rfl

@[simp] theorem wordRound_snd (inw : Word) (nb : Nat) (kind : Kind) (s : State) :
    (wordRound inw nb kind s).2 = outputWord inw nb s := rfl

@[simp] theorem feedbackWord_aad (inw : Word) (nb : Nat) (s : State) : feedbackWord inw nb .aad s = inw := rfl

@[simp] theorem feedbackWord_enc (inw : Word) (nb : Nat) (s : State) : feedbackWord inw nb .enc s = inw := rfl

@[simp] theorem feedbackWord_dec (inw : Word) (nb : Nat) (s : State) :
    feedbackWord inw nb .dec s = outputWord inw nb s := rfl

/-- All a word-round can do (R88): new accumulators, a new history, the round counter advanced by one. -/
theorem wordRound_spec (inw : Word) (nb : Nat) (kind : Kind) (s : State) :
    ∃ z oldz, (wordRound inw nb kind s).1 = { s with z := z, oldz := oldz, i := s.i + 1 } :=
  ⟨_, _, rfl⟩

/-! The loop of `PROCESS_AAD`. -/

@[simp] theorem absorbWords_zero (a rem : Nat) (s : State) : absorbWords 0 a rem s = s := rfl

/-- All the loop of `PROCESS_AAD` can do (R120): new accumulators, a new history, one round counted for each word. -/
theorem absorbWords_spec (words a rem : Nat) (s : State) :
    ∃ z oldz, absorbWords words a rem s = { s with z := z, oldz := oldz, i := s.i + BitVec.ofNat 32 words } := by
  induction words generalizing a rem s with
  | zero => exact ⟨s.z, s.oldz, by simp [absorbWords]⟩
  | succ words ih =>
    obtain ⟨z, oldz, h⟩ := ih (a + min rem wordBytes) (rem - min rem wordBytes)
      (wordRound (memRead s.mem a (min rem wordBytes)) (min rem wordBytes) .aad s).1
    refine ⟨z, oldz, ?_⟩
    rw [absorbWords, h]
    simp only [wordRound_fst, absorb, State.mk.injEq, true_and, and_true]
    rw [BitVec.ofNat_add, BitVec.add_assoc, BitVec.add_comm (BitVec.ofNat 32 words)]
    rfl

/-! The loop of `PROCESS`. -/

@[simp] theorem streamWords_zero (kind : Kind) (a d rem : Nat) (s : State) : streamWords kind 0 a d rem s = s := rfl

/-- All one word of `PROCESS` can do (R121): a word-round, and one write of `nb` bytes at `d`. -/
theorem streamWord_spec (kind : Kind) (a d nb : Nat) (s : State) :
    ∃ z oldz, streamWord kind a d nb s =
      { s with z := z, oldz := oldz, i := s.i + 1,
               mem := memWrite s.mem d nb (outputWord (memRead s.mem a nb) nb s) } :=
  ⟨_, _, rfl⟩

/-- All the loop of `PROCESS` can do to the registers (R121). -/
theorem streamWords_spec (kind : Kind) (words a d rem : Nat) (s : State) :
    ∃ z oldz m, streamWords kind words a d rem s =
      { s with z := z, oldz := oldz, i := s.i + BitVec.ofNat 32 words, mem := m } := by
  induction words generalizing a d rem s with
  | zero => exact ⟨s.z, s.oldz, s.mem, by simp [streamWords]⟩
  | succ words ih =>
    obtain ⟨z, oldz, m, h⟩ := ih (a + min rem wordBytes) (d + min rem wordBytes) (rem - min rem wordBytes)
      (streamWord kind a d (min rem wordBytes) s)
    refine ⟨z, oldz, m, ?_⟩
    rw [streamWords, h]
    simp only [streamWord, wordRound_fst, absorb, State.mk.injEq, true_and, and_true]
    rw [BitVec.ofNat_add, BitVec.add_assoc, BitVec.add_comm (BitVec.ofNat 32 words)]
    rfl

/-- The loop of `PROCESS` stores to `d .. d + rem - 1` only (R41, R48). -/
theorem readByte_streamWords_outside (kind : Kind) (words a d rem : Nat) (s : State) {b : Nat}
    (hb : b < d ∨ d + rem ≤ b) : readByte (streamWords kind words a d rem s).mem b = readByte s.mem b := by
  induction words generalizing a d rem s with
  | zero => rfl
  | succ words ih =>
    rw [streamWords, ih _ _ _ _ (by omega), streamWord_mem, readByte_memWrite, if_neg (by omega)]

/-- The loop of `PROCESS` keeps the canonical form of memory. -/
theorem memWf_streamWords (kind : Kind) (words a d rem : Nat) {s : State} (h : memWf s.mem = true)
    (hd : d + rem ≤ addrSpace) : memWf (streamWords kind words a d rem s).mem = true := by
  induction words generalizing a d rem s with
  | zero => exact h
  | succ words ih =>
    exact ih _ _ _ (by rw [streamWord_mem]; exact memWf_memWrite _ h (by omega)) (by omega)

/-! The rounds and the writes of `FINALIZE`. -/

/-- All the finaliser's rounds can do (R140): new accumulators, a new history, a new scratch array, one round counted
for each. -/
theorem macRound_foldl_spec (p : Word) (ts : List Nat) (s : State) :
    ∃ z oldz buf, ts.foldl (macRound p) s =
      { s with z := z, oldz := oldz, i := s.i + BitVec.ofNat 32 ts.length, macBuf := buf } := by
  induction ts generalizing s with
  | nil => exact ⟨s.z, s.oldz, s.macBuf, by simp⟩
  | cons t ts ih =>
    obtain ⟨z, oldz, buf, h⟩ := ih (macRound p s t)
    refine ⟨z, oldz, buf, ?_⟩
    rw [List.foldl_cons, h]
    simp only [macRound, wordRound_fst, absorb, State.mk.injEq, true_and, and_true, List.length_cons]
    rw [BitVec.ofNat_add, BitVec.add_assoc, BitVec.add_comm (BitVec.ofNat 32 ts.length)]
    rfl

/-- All `FINALIZE`'s XORs and rounds can do (R140). -/
theorem macRounds_spec (s : State) :
    ∃ z oldz buf, macRounds s = { s with z := z, oldz := oldz, i := s.i + 12, macBuf := buf } := by
  obtain ⟨z, oldz, buf, h⟩ := macRound_foldl_spec (padTag s) (List.range (macInitCount + macWordCount)) (macInject s)
  exact ⟨z, oldz, buf, by rw [macRounds, h]; rfl⟩

/-- Writing words one after another from an address: byte `b` of the range is byte `(b - dst) mod 4` of word
`(b - dst) / 4`, every other cell keeps its byte. -/
theorem readByte_foldl_memWrite (f : Nat → Word) (dst k : Nat) (m : Memory) (b : Nat) :
    readByte ((List.range k).foldl (fun m w => memWrite m (dst + 4 * w) 4 (f w)) m) b =
      if dst ≤ b ∧ b < dst + 4 * k then (f ((b - dst) / 4)).extractLsb' (8 * ((b - dst) % 4)) 8 else readByte m b := by
  induction k with
  | zero => simp
  | succ k ih =>
    rw [List.range_succ, List.foldl_append, List.foldl_cons, List.foldl_nil, readByte_memWrite, ih]
    by_cases h : dst + 4 * k ≤ b ∧ b < dst + 4 * k + 4
    · rw [if_pos h, if_pos (by omega)]
      have h1 : (b - dst) / 4 = k := by omega
      have h2 : b - (dst + 4 * k) = (b - dst) % 4 := by omega
      rw [h1, h2]
    · rw [if_neg h]
      by_cases h3 : dst ≤ b ∧ b < dst + 4 * k
      · rw [if_pos h3, if_pos (by omega)]
      · rw [if_neg h3, if_neg (by omega)]

theorem memWf_foldl_memWrite (f : Nat → Word) (dst k : Nat) {m : Memory} (h : memWf m = true)
    (hd : dst + 4 * k ≤ addrSpace) :
    memWf ((List.range k).foldl (fun m w => memWrite m (dst + 4 * w) 4 (f w)) m) = true := by
  induction k with
  | zero => exact h
  | succ k ih =>
    rw [List.range_succ, List.foldl_append, List.foldl_cons, List.foldl_nil]
    exact memWf_memWrite _ (ih (by omega)) (by omega)

/-- The MAC words fill exactly the MAC bytes (R5). -/
theorem macWords_bytes (m : MacSize) : 4 * macWords m = macBytes m := by cases m <;> rfl

/-- What the MAC writes of `FINALIZE` do to a cell (R140). -/
theorem readByte_emitMac (dst : Nat) (s : State) (b : Nat) :
    readByte (emitMac dst s) b =
      if dst ≤ b ∧ b < dst + macBytes s.macSize then
        (s.macBuf.getD (macInitCount + (b - dst) / 4) 0).extractLsb' (8 * ((b - dst) % 4)) 8
      else readByte s.mem b := by
  rw [emitMac, readByte_foldl_memWrite (fun w => s.macBuf.getD (macInitCount + w) 0), macWords_bytes]

theorem memWf_emitMac (dst : Nat) {s : State} (h : memWf s.mem = true) (hd : dst + macBytes s.macSize ≤ addrSpace) :
    memWf (emitMac dst s) = true :=
  memWf_foldl_memWrite (fun w => s.macBuf.getD (macInitCount + w) 0) dst _ h (by rw [macWords_bytes]; exact hd)

/-! Admission. -/

theorem admitsAll_iff (p : Admit) (a n : Nat) :
    admitsAll p a n = true ↔ ∀ b, a ≤ b → b < a + n → admits p b = true := by
  cases p with
  | every => simp [admitsAll, admits]
  | regions rs =>
    simp only [admitsAll, List.all_eq_true, List.mem_range]
    constructor
    · intro h b hab hb
      have := h (b - a) (by omega)
      rwa [show a + (b - a) = b by omega] at this
    · intro h k hk
      exact h _ (by omega) (by omega)

/-- An admitted range that is not empty lies in the address space (R47). -/
theorem le_addrSpace_of_rangeAdmitted {p : Admit} {a : Word} {n : Nat} (h : rangeAdmitted p a n = true) :
    a.toNat + n ≤ addrSpace := by
  have ha : a.toNat < 2 ^ 32 := a.isLt
  simp only [rangeAdmitted, Bool.or_eq_true, beq_iff_eq, Bool.and_eq_true, decide_eq_true_eq] at h
  unfold addrSpace at *
  omega

end Sys2Proof.Machine
end

