-- ==== Sys2Proof/Laws/Commands.lean ====
section
/-! SUPPORT. What each command can do: it is accepted and reaches its state, or it is refused with one of its
codes (spec/60_exceptions.md R160 to R168). -/

namespace Sys2Proof.Machine

/-! The response, the refused command and the step. -/

/-- The `CODE` of a response word (R68). -/
@[simp] theorem responseWord_code (c : Code) (v : Byte) : (responseWord c v).extractLsb' 0 4 = codeBits c := by
  unfold responseWord
  cases c <;> (revert v; decide +kernel)

/-- `CODE = 0` is `OK` only (R69). -/
theorem codeBits_eq_zero {c : Code} : codeBits c = 0 ↔ c = .ok := by cases c <;> decide

/-- Two responses are equal only when their codes are (R68, R69). -/
theorem code_of_responseWord_eq {c c' : Code} {v v' : Byte} (h : responseWord c v = responseWord c' v') : c = c' := by
  have := congrArg (BitVec.extractLsb' 0 4) h
  rw [responseWord_code, responseWord_code] at this
  cases c <;> cases c' <;> simp_all [codeBits]

/-- All a refused command does (R160, R168): its response is delivered. -/
theorem failCommand_eq (c : Code) (s : State) : failCommand c s = .next (deliver (responseWord c 0) s) := rfl

/-- All the end of an accepted command does (R67, R68): its response is delivered. -/
theorem respondValue_eq (v : Byte) (s : State) : respondValue v s = .next (deliver (responseWord .ok v) s) := rfl

theorem respondOk_eq (s : State) : respondOk s = .next (deliver (responseWord .ok 0) s) := rfl

/-- A descriptor that does not decode (R165). -/
theorem execDescriptor_of_error {d : Descriptor} {e : DecodeReject} (h : decodeDescriptor d = .error e) (s : State) :
    execDescriptor d s = failCommand .badCommand s := by rw [execDescriptor, h]

/-- A descriptor that decodes runs its command (R60). -/
theorem execDescriptor_of_ok {d : Descriptor} {i : Instr} (h : decodeDescriptor d = .ok i) (s : State) :
    execDescriptor d s = exec i s := by rw [execDescriptor, h]

theorem stepPort_nil {s : State} (h : s.inputs = []) : stepPort s = .next s := by rw [stepPort, h]

theorem stepPort_cons {s : State} {e : HostEvent} {rest : List HostEvent} (h : s.inputs = e :: rest) :
    stepPort s = handleEvent e { s with inputs := rest } := by rw [stepPort, h]

/-! The checks. -/

theorem keySizeValid_iff (k : Word) : keySizeValid k = true ↔ k.toNat ≤ 256 ∧ k.toNat % 8 = 0 := by
  rw [keySizeValid, Bool.and_eq_true, decide_eq_true_eq, beq_iff_eq, keyMaxBits]

theorem nonceSizeValid_iff (k : Word) : nonceSizeValid k = true ↔ k.toNat = 128 := by
  rw [nonceSizeValid, beq_iff_eq, nonceBits]

theorem legalData_iff (p : Phase) : legalData p = true ↔ p = .armed ∨ p = .streaming := by
  cases p <;> simp [legalData]

/-! What each command can do: it is accepted and reaches its state, or it is refused with one of its codes. -/

theorem execSetupKey_cases (mode : Mode) (src kbits : Word) (s : State) :
    (legalSetupKey s.phase = true ∧ keySizeValid kbits = true ∧ rangeAdmitted s.backed src (kbits.toNat / 8) = true ∧
      execSetupKey mode src kbits s = respondOk (keyedState mode src kbits s)) ∨
    (∃ c, c ≠ .ok ∧ execSetupKey mode src kbits s = failCommand c s) := by
  unfold execSetupKey
  split
  · exact .inr ⟨_, by decide, rfl⟩
  split
  · exact .inr ⟨_, by decide, rfl⟩
  split
  · exact .inr ⟨_, by decide, rfl⟩
  · simp_all

theorem execSetupNonce_cases (src nbits : Word) (s : State) :
    (legalSetupNonce s.phase = true ∧ nonceSizeValid nbits = true ∧ rangeAdmitted s.backed src 16 = true ∧
      execSetupNonce src nbits s = respondOk (armedState src s)) ∨
    (∃ c, c ≠ .ok ∧ execSetupNonce src nbits s = failCommand c s) := by
  unfold execSetupNonce
  split
  · exact .inr ⟨_, by decide, rfl⟩
  split
  · exact .inr ⟨_, by decide, rfl⟩
  split
  · exact .inr ⟨_, by decide, rfl⟩
  · simp_all

theorem execReset_cases (s : State) :
    (legalReset s.phase = true ∧ execReset s = respondOk { nonceInit s with phase := .armed }) ∨
    (∃ c, c ≠ .ok ∧ execReset s = failCommand c s) := by
  unfold execReset
  split
  · exact .inr ⟨_, by decide, rfl⟩
  · simp_all

theorem execProcessAad_cases (src len : Word) (s : State) :
    (legalData s.phase = true ∧ msgBegun s = false ∧ aadShort s = false ∧ rangeAdmitted s.backed src len.toNat = true ∧
      execProcessAad src len s = respondOk (absorbedState src len s)) ∨
    (∃ c, c ≠ .ok ∧ execProcessAad src len s = failCommand c s) := by
  unfold execProcessAad
  split
  · exact .inr ⟨_, by decide, rfl⟩
  split
  · exact .inr ⟨_, by decide, rfl⟩
  split
  · exact .inr ⟨_, by decide, rfl⟩
  split
  · exact .inr ⟨_, by decide, rfl⟩
  · simp_all

theorem execProcess_cases (src dst len : Word) (s : State) :
    (legalData s.phase = true ∧ msgShort s = false ∧ rangeAdmitted s.backed src len.toNat = true ∧
      rangeAdmitted s.backed dst len.toNat = true ∧
      execProcess src dst len s = respondOk (processedState src dst len s)) ∨
    (∃ c, c ≠ .ok ∧ execProcess src dst len s = failCommand c s) := by
  unfold execProcess
  split
  · exact .inr ⟨_, by decide, rfl⟩
  split
  · exact .inr ⟨_, by decide, rfl⟩
  split
  · exact .inr ⟨_, by decide, rfl⟩
  · simp_all

theorem execFinalize_cases (dst : Word) (s : State) :
    (legalData s.phase = true ∧ rangeAdmitted s.backed dst (macBytes s.macSize) = true ∧
      execFinalize dst s = respondOk (finalizedState dst s)) ∨
    (∃ c, c ≠ .ok ∧ execFinalize dst s = failCommand c s) := by
  unfold execFinalize
  split
  · exact .inr ⟨_, by decide, rfl⟩
  split
  · exact .inr ⟨_, by decide, rfl⟩
  · simp_all

/-! What the accepted data commands leave alone. -/

theorem absorbedState_spec (src len : Word) (s : State) :
    ∃ z oldz, absorbedState src len s =
      { s with z := z, oldz := oldz, i := s.i + BitVec.ofNat 32 (wordCount len.toNat),
               aadLen := s.aadLen + len.setWidth 64, phase := .streaming } := by
  obtain ⟨z, oldz, h⟩ := absorbWords_spec (wordCount len.toNat) src.toNat len.toNat
    { s with aadLen := s.aadLen + len.setWidth 64, phase := .streaming }
  exact ⟨z, oldz, h⟩

theorem processedState_spec (src dst len : Word) (s : State) :
    ∃ z oldz m, processedState src dst len s =
      { s with z := z, oldz := oldz, i := s.i + BitVec.ofNat 32 (wordCount len.toNat), aadx := 0,
               msgLen := s.msgLen + len.setWidth 64, phase := .streaming, mem := m } := by
  obtain ⟨z, oldz, m, h⟩ := streamWords_spec (kindOfMode s.mode) (wordCount len.toNat) src.toNat dst.toNat len.toNat
    (messageStart len s)
  exact ⟨z, oldz, m, h⟩

theorem finalizedState_spec (dst : Word) (s : State) :
    ∃ z oldz buf m, finalizedState dst s =
      { s with z := z, oldz := oldz, i := s.i + 12, macBuf := buf, mem := m, phase := .finalized } := by
  obtain ⟨z, oldz, buf, h⟩ := macRounds_spec s
  exact ⟨z, oldz, buf, _, by rw [finalizedState, h]⟩

end Sys2Proof.Machine
end

