-- ==== Sys2Proof/Laws/PerInstr.lean ====
section
/-! SUPPORT. Statements about every command as syntax, one lemma per constructor of `Instr`. -/

namespace Sys2Proof.Laws.EncodesToItsRow

/-- `match` of the command's row of spec/30_encoding.md R64. -/
def rowMatch : Instr → Word
  | .setupKey _ _ _ => 0x00000001
  | .setupNonce _ _ => 0x00000002
  | .processAad _ _ => 0x00000003
  | .process _ _ _ => 0x00000004
  | .finalize _ => 0x00000005
  | .reset => 0x00000006
  | .erase => 0x00000007
  | .getKeySize => 0x00000008
  | .getNonceSize => 0x00000009
  | .getWordSize => 0x0000000A
  | .getMacSize => 0x0000000B

/-- `mask` of the command's row of R64: every bit, but for the `MODE` bit of `SETUP_KEY`. -/
def rowMask : Instr → Word
  | .setupKey _ _ _ => 0xFFFFFEFF
  | .setupNonce _ _ => 0xFFFFFFFF
  | .processAad _ _ => 0xFFFFFFFF
  | .process _ _ _ => 0xFFFFFFFF
  | .finalize _ => 0xFFFFFFFF
  | .reset => 0xFFFFFFFF
  | .erase => 0xFFFFFFFF
  | .getKeySize => 0xFFFFFFFF
  | .getNonceSize => 0xFFFFFFFF
  | .getWordSize => 0xFFFFFFFF
  | .getMacSize => 0xFFFFFFFF

/-- The encoder gives every command a legal `W0` of its own row of R64. -/
def Statement (i : Instr) : Prop :=
  (encode i).wellFormed = true ∧ (encode i).w0 &&& rowMask i = rowMatch i

/-- The checks read only `W0`, so they are decided on it. -/
theorem of_w0 {i : Instr} {w : Word} (h : (encode i).w0 = w)
    (hw : (⟨w, 0, 0, 0⟩ : Descriptor).wellFormed = true) (hm : w &&& rowMask i = rowMatch i) : Statement i :=
  ⟨by simpa [Descriptor.wellFormed, Descriptor.reservedClear, Descriptor.modeBitLegal, Descriptor.opcodeAssigned, h]
    using hw, h ▸ hm⟩

theorem setupKey (mode : Mode) (src kbits : Word) : Statement (.setupKey mode src kbits) := by
  cases mode
  · exact of_w0 (w := 0x00000001) (by rfl) (by decide) (show (0x00000001 &&& 0xFFFFFEFF : Word) = 0x00000001 by decide)
  · exact of_w0 (w := 0x00000101) (by rfl) (by decide) (show (0x00000101 &&& 0xFFFFFEFF : Word) = 0x00000001 by decide)

theorem setupNonce (src nbits : Word) : Statement (.setupNonce src nbits) :=
  of_w0 (w := 0x00000002) (by rfl) (by decide) (show (0x00000002 &&& 0xFFFFFFFF : Word) = 0x00000002 by decide)

theorem processAad (src len : Word) : Statement (.processAad src len) :=
  of_w0 (w := 0x00000003) (by rfl) (by decide) (show (0x00000003 &&& 0xFFFFFFFF : Word) = 0x00000003 by decide)

theorem process (src dst len : Word) : Statement (.process src dst len) :=
  of_w0 (w := 0x00000004) (by rfl) (by decide) (show (0x00000004 &&& 0xFFFFFFFF : Word) = 0x00000004 by decide)

theorem finalize (dst : Word) : Statement (.finalize dst) :=
  of_w0 (w := 0x00000005) (by rfl) (by decide) (show (0x00000005 &&& 0xFFFFFFFF : Word) = 0x00000005 by decide)

theorem reset : Statement .reset := ⟨by decide, by decide⟩

theorem erase : Statement .erase := ⟨by decide, by decide⟩

theorem getKeySize : Statement .getKeySize := ⟨by decide, by decide⟩

theorem getNonceSize : Statement .getNonceSize := ⟨by decide, by decide⟩

theorem getWordSize : Statement .getWordSize := ⟨by decide, by decide⟩

theorem getMacSize : Statement .getMacSize := ⟨by decide, by decide⟩

end Sys2Proof.Laws.EncodesToItsRow
end

