-- ==== Sys2Proof/Tests/Slice0.lean ====
section
/-!
SUPPORT. Tests. The expected values of the step tests are those of spec/95_test_vectors.md and
spec/96_test_vectors_2.md, named in each comment; the words of the decode tests are written out from
spec/30_encoding.md R61 and R64. The `witness_` theorems show that the hypotheses of each statement of
Certificates/Slice0/Obligations.lean can be met together, clause by clause.
-/

namespace Sys2Proof.Tests

open Sys2Proof Sys2Proof.Machine

/-! The encoding's checks: each one refuses a descriptor that the others pass. -/

theorem test_wellFormed_accepts : (⟨0x00000101, 1, 2, 3⟩ : Descriptor).wellFormed = true := by decide
theorem test_reservedClear_refuses : (⟨0x00000201, 0, 0, 0⟩ : Descriptor).reservedClear = false ∧
    (⟨0x80000007, 0, 0, 0⟩ : Descriptor).wellFormed = false := by decide
theorem test_modeBitLegal_refuses : (⟨0x00000102, 0, 0, 0⟩ : Descriptor).modeBitLegal = false ∧
    (⟨0x00000102, 0, 0, 0⟩ : Descriptor).wellFormed = false := by decide
theorem test_opcodeAssigned_refuses : (⟨0x00000000, 0, 0, 0⟩ : Descriptor).opcodeAssigned = false ∧
    (⟨0x0000000C, 0, 0, 0⟩ : Descriptor).opcodeAssigned = false ∧
    (⟨0x000000FF, 0, 0, 0⟩ : Descriptor).wellFormed = false := by decide
theorem test_decode_rejects_by_name :
    decodeDescriptor ⟨0x00000204, 0, 0, 0⟩ = .error .reservedBits ∧
    decodeDescriptor ⟨0x00000104, 0, 0, 0⟩ = .error .modeBit ∧
    decodeDescriptor ⟨0x0000000C, 0, 0, 0⟩ = .error .opcode ∧ decode [1, 0, 0, 0] = .error .truncated := by decide

/-! Decoding: every constructor's `W0` bit by bit (reserved 31:9, `MODE` 8, `OPCODE` 7:0), the operand words of V50 and
of the programs P1 to P3. -/

theorem test_decode_setupKey_encrypt :
    decodeDescriptor ⟨0b00000000000000000000000000000001, 0x100, 0, 256⟩ = .ok (.setupKey .encrypt 0x100 256) := by decide
theorem test_decode_setupKey_decrypt :
    decodeDescriptor ⟨0b00000000000000000000000100000001, 0x100, 0xFFFFFFFF, 128⟩ = .ok (.setupKey .decrypt 0x100 128) := by decide
theorem test_decode_setupNonce :
    decodeDescriptor ⟨0b00000000000000000000000000000010, 0x200, 0, 128⟩ = .ok (.setupNonce 0x200 128) := by decide
theorem test_decode_processAad :
    decodeDescriptor ⟨0b00000000000000000000000000000011, 0x304, 0, 3⟩ = .ok (.processAad 0x304 3) := by decide
theorem test_decode_process :
    decodeDescriptor ⟨0b00000000000000000000000000000100, 0x300, 0x340, 10⟩ = .ok (.process 0x300 0x340 10) := by decide
theorem test_decode_finalize :
    decodeDescriptor ⟨0b00000000000000000000000000000101, 7, 0x380, 9⟩ = .ok (.finalize 0x380) := by decide
theorem test_decode_reset :
    decodeDescriptor ⟨0b00000000000000000000000000000110, 1, 2, 3⟩ = .ok (.reset) := by decide
theorem test_decode_erase :
    decodeDescriptor ⟨0b00000000000000000000000000000111, 1, 2, 3⟩ = .ok (.erase) := by decide
theorem test_decode_getKeySize :
    decodeDescriptor ⟨0b00000000000000000000000000001000, 0, 0, 0⟩ = .ok (.getKeySize) := by decide
theorem test_decode_getNonceSize :
    decodeDescriptor ⟨0b00000000000000000000000000001001, 0, 0, 0⟩ = .ok (.getNonceSize) := by decide
theorem test_decode_getWordSize :
    decodeDescriptor ⟨0b00000000000000000000000000001010, 0, 0, 0⟩ = .ok (.getWordSize) := by decide
theorem test_decode_getMacSize :
    decodeDescriptor ⟨0b00000000000000000000000000001011, 0, 0, 0⟩ = .ok (.getMacSize) := by decide

/-- R72, the expansions, with the words of R71; the all-zero `.word` is illegal (R65). -/
theorem test_expandPseudo :
    expandPseudo (.setupNonce 0x200) = ⟨0x00000002, 0x200, 0, 128⟩ ∧
    expandPseudo (.setupKeyBytes .decrypt 0x100 32) = ⟨0x00000101, 0x100, 0, 256⟩ ∧
    expandPseudo (.processInPlace 0x300 10) = ⟨0x00000004, 0x300, 0x300, 10⟩ ∧
    decodeDescriptor (expandPseudo (.word ⟨0, 0, 0, 0⟩)) = .error .opcode := by decide

/-! One step. -/

/-- The state an outcome leaves, for the tests. -/
def reached (o : Host.Outcome State Fault Refusal) : State :=
  match o with
  | .next t => t
  | .fault _ => State.reset
  | .refused _ => State.reset

/-- Bytes `a .. a + n - 1` of a memory. -/
def bytesAt (m : Memory) (a n : Nat) : List Byte := (List.range n).map fun k => readByte m (a + k)

/-- The state of V1 after its step 2: the empty key, the zero nonce, `Armed`. -/
def armedV1 : State :=
  { State.reset with
    phase := .armed, i := 8, aadx := 0xAADAADAA
    x0 := #v[0x326E3BA9, 0x6C4F23BC, 0x820F6C32, 0x41A2FF74, 0x7D57DAE3, 0x641B7CEF, 0x387C78AF, 0xDEE3EFDC]
    x1 := #v[0x7D57DAE3, 0x641B7CEF, 0x387C78AF, 0xDEE3EFDC, 0x326E3BA9, 0x6C4F23BD, 0x820F6C34, 0x41A2FF77]
    z := ⟨0xBEC94470, 0x18A0EC55, 0x8F2E5B96, 0xB8F777BC, 0x7CB2BA2A⟩
    oldz := #v[0xAA197089, 0x75A3C2B1, 0x1A1E2858, 0x7CB2BA2A] }

/-- V1, step 1: the schedule of the empty key. -/
theorem test_setupKey_empty : (reached (exec (.setupKey .encrypt 0x100 0) State.reset)).x0 = armedV1.x0 := by
  decide +kernel

/-- V18: the five-byte key with a 96-bit strap. -/
theorem test_setupKey_five_bytes :
    let s := { State.reset with macSize := .mac96, mem := [(0x100, 1), (0x101, 2), (0x102, 3), (0x103, 4), (0x104, 5)] }
    let t := reached (exec (.setupKey .decrypt 0x100 40) s)
    t.x0 = #v[0x523D1344, 0xFD541A3F, 0x5B47D36F, 0x8CC7D0D4, 0xA29D34AD, 0x8E1CBFA2, 0x73AFA5FA, 0x35B61EDE] ∧
    t.bump = 0x00006014 ∧ t.keyBits = 40 ∧ t.mode = .decrypt ∧ t.phase = .keyReady := by
  decide +kernel

/-- V1, step 2. -/
theorem test_setupNonce_zero :
    let t := reached (exec (.setupNonce 0x200 128) { State.reset with phase := .keyReady, x0 := armedV1.x0 })
    t.z = armedV1.z ∧ t.oldz = armedV1.oldz ∧ t.x1 = armedV1.x1 ∧ t.i = 8 ∧ t.aadx = 0xAADAADAA := by
  decide +kernel

/-- V20, the second row for the empty key: a 96-bit strap's `BUMP` in words 1 and 5 of `X1`. -/
theorem test_setupNonce_bump :
    let t := reached (exec (.setupNonce 0x200 128)
      { State.reset with phase := .keyReady, x0 := armedV1.x0, bump := 0x6000 })
    t.z = ⟨0xD8BB66B4, 0x56C7D9DA, 0x48E6A055, 0x31AC69D1, 0x5B87E751⟩ ∧
    t.oldz = #v[0x748337B9, 0x16DCBB39, 0xD99722CE, 0x5B87E751] := by
  decide +kernel

/-- R106's example: after a session of vector A, `RESET` gives the `Armed` state again. -/
theorem test_reset_after_session :
    let t := reached (exec .reset { armedV1 with
      phase := .finalized, i := 23, msgLen := 10, aadx := 0, oldz := #v[1, 2, 3, 4], z := ⟨1, 2, 3, 4, 5⟩ })
    t.z = armedV1.z ∧ t.oldz = armedV1.oldz ∧ t.i = 8 ∧ t.msgLen = 0 ∧ t.phase = .armed := by
  decide +kernel

/-- V21: `RESET` is refused in `KeyReady`. -/
theorem test_reset_refused : (reached (exec .reset { State.reset with phase := .keyReady })).responses = [4] := by decide

/-- P3, command 3, its bookkeeping. -/
theorem test_processAad_counts :
    let t := reached (exec (.processAad 0x300 4) armedV1)
    t.i = 9 ∧ t.aadLen = 4 ∧ t.msgLen = 0 ∧ t.aadx = 0xAADAADAA ∧ t.phase = .streaming ∧ t.responses = [0] := by
  decide +kernel

/-- V34: AAD after a message is refused, even with zero lengths. -/
theorem test_processAad_after_message :
    (reached (exec (.processAad 0x300 0) { armedV1 with phase := .streaming, aadx := 0 })).responses = [3] := by decide

/-- V1, step 3: the ciphertext, the two bytes above it left alone, and the accumulators. -/
theorem test_process_vectorA :
    let t := reached (exec (.process 0x300 0x340 10) armedV1)
    bytesAt t.mem 0x340 12 = [0xD5, 0x2D, 0x45, 0xC6, 0x05, 0xFD, 0x7A, 0x67, 0x74, 0x8D, 0, 0] ∧
    t.z = ⟨0xF9CC3BB2, 0x48CC8A11, 0x954796F7, 0x119A8883, 0x1D420B69⟩ ∧ t.i = 11 ∧ t.msgLen = 10 ∧ t.aadx = 0 := by
  decide +kernel

/-- V35, the last case: a destination two bytes above the source. -/
theorem test_process_forward_overlap :
    let m := (List.range 16).map fun k => (0x300 + k, BitVec.ofNat 8 (0x10 + k))
    let t := reached (exec (.process 0x300 0x302 8) { armedV1 with mem := m })
    bytesAt t.mem 0x300 16 = [0x10, 0x11, 0xC5, 0x3C, 0x57, 0xD5, 0xD8, 0xA5, 0x43, 0xEF, 0x1A, 0x1B, 0x1C, 0x1D, 0x1E,
      0x1F] := by
  decide +kernel

/-- V1, step 4. -/
theorem test_finalize_vectorA :
    let t := reached (exec (.finalize 0x380) { armedV1 with
      phase := .streaming, i := 11, msgLen := 10, aadx := 0
      z := ⟨0xF9CC3BB2, 0x48CC8A11, 0x954796F7, 0x119A8883, 0x1D420B69⟩
      oldz := #v[0x8C6D9367, 0x38530C28, 0x1D420B69, 0x7CB2BA2A] })
    bytesAt t.mem 0x380 16 = [0xEF, 0x7B, 0xFE, 0x7A, 0xEB, 0xDC, 0x1A, 0x8B, 0x43, 0x36, 0x2F, 0x28, 0x93, 0x80, 0x0D,
      0xBC] ∧ t.i = 23 ∧ t.macBuf[0] = 0x975C42A0 ∧ t.phase = .finalized := by
  decide +kernel

/-- V38, the last row: both halves of `AADLEN` (the XOR still pending). -/
theorem test_finalize_high_aadLen :
    let t := reached (exec (.finalize 0x380) { armedV1 with phase := .streaming, aadLen := 0x0000000100000004 })
    bytesAt t.mem 0x380 4 = [0xEF, 0x96, 0x03, 0xF5] ∧ t.aadx = 0xAADAADAA := by
  decide +kernel

/-- R190 on V1, step 4: the reset event after two of the sixteen MAC bytes. -/
theorem test_reset_during_finalize :
    let t := reached (step { armedV1 with
      phase := .streaming, i := 11, msgLen := 10, aadx := 0
      z := ⟨0xF9CC3BB2, 0x48CC8A11, 0x954796F7, 0x119A8883, 0x1D420B69⟩
      oldz := #v[0x8C6D9367, 0x38530C28, 0x1D420B69, 0x7CB2BA2A]
      inputs := [.resetDuring (encode (.finalize 0x380)) 2 .mac96] })
    t.mem = [(0x380, 0xEF), (0x381, 0x7B)] ∧ t.phase = .fresh ∧ t.macSize = .mac96 ∧ t.responses = [] := by
  decide +kernel

/-- P1, commands 5 and 6: `ERASE`, then a refused `SETUP_KEY`. -/
theorem test_erase :
    let t := reached (exec .erase armedV1)
    t.x0 = Vector.replicate 8 0 ∧ t.z = ⟨0, 0, 0, 0, 0⟩ ∧ t.phase = .erased ∧
    (reached (exec (.setupKey .encrypt 0x100 0) t)).responses = [0, 4] := by decide

/-- V50 and P4: the four queries, in `Fresh` and in `Erased`. -/
theorem test_queries :
    (reached (exec .getKeySize State.reset)).responses = [0x2000] ∧
    (reached (exec .getNonceSize State.reset)).responses = [0x1000] ∧
    (reached (exec .getWordSize { State.reset with phase := .erased })).responses = [0x400] ∧
    (reached (exec .getMacSize State.reset)).responses = [0x1000] ∧
    (reached (exec .getMacSize { State.reset with macSize := .mac96 })).responses = [0xC00] := by decide

/-- A table word placed where the machine takes its next command is run by the next step. -/
theorem test_withFetchWord :
    (reached (step (State.reset.withFetchWord 32 0x0000000A))).responses = [0x400] ∧
    (reached (step (State.reset.withFetchWord 32 0x00000101))).phase = .keyReady := by
  decide +kernel

/-! Witnesses: the hypotheses of each statement can be met. -/

/-- The reset state in another phase. -/
def inPhase (p : Phase) : State := { State.reset with phase := p }

theorem witness_DecodeOfEncodedBytes :
    (Instr.process 0xFFFFFFFF 0 1).wellFormed = true := by decide

theorem witness_OpcodeMapDecodes :
    0x00000001#32 &&& 0xFFFFFEFF#32 = 0x00000001#32 ∧ 0x00000101#32 &&& 0xFFFFFEFF#32 = 0x00000001#32 ∧
    0x00000002#32 &&& 0xFFFFFFFF#32 = 0x00000002#32 ∧ 0x00000003#32 &&& 0xFFFFFFFF#32 = 0x00000003#32 ∧
    0x00000004#32 &&& 0xFFFFFFFF#32 = 0x00000004#32 ∧ 0x00000005#32 &&& 0xFFFFFFFF#32 = 0x00000005#32 ∧
    0x00000006#32 &&& 0xFFFFFFFF#32 = 0x00000006#32 ∧ 0x00000007#32 &&& 0xFFFFFFFF#32 = 0x00000007#32 ∧
    0x00000008#32 &&& 0xFFFFFFFF#32 = 0x00000008#32 ∧ 0x00000009#32 &&& 0xFFFFFFFF#32 = 0x00000009#32 ∧
    0x0000000A#32 &&& 0xFFFFFFFF#32 = 0x0000000A#32 ∧ 0x0000000B#32 &&& 0xFFFFFFFF#32 = 0x0000000B#32 ∧
    (0x00000000#32 &&& 0xFFFFFEFF#32 ≠ 0x00000001#32 ∧ ¬ (0x00000002#32 ≤ 0x00000000#32 ∧ 0x00000000#32 ≤ 0x0000000B#32)) ∧
    (0x0000000C#32 &&& 0xFFFFFEFF#32 ≠ 0x00000001#32 ∧ ¬ (0x00000002#32 ≤ 0x0000000C#32 ∧ 0x0000000C#32 ≤ 0x0000000B#32)) := by decide

theorem witness_IgnoredWordsHaveNoEffect :
    ∃ d e : Descriptor, d ≠ e ∧ e.w0 = d.w0 ∧
      (d.opcode = 0x01#8 ∨ d.opcode = 0x02#8 ∨ d.opcode = 0x03#8 ∨ d.opcode = 0x04#8 → e.w1 = d.w1 ∧ e.w3 = d.w3) ∧
      (d.opcode = 0x04#8 ∨ d.opcode = 0x05#8 → e.w2 = d.w2) := ⟨⟨5, 1, 2, 3⟩, ⟨5, 4, 2, 6⟩, by decide⟩

theorem witness_BadCommandRefusal :
    (∃ d : Descriptor, d.opcode = 0x00#8) ∧ (∃ d : Descriptor, 0x0B#8 < d.opcode) ∧
    (∃ d : Descriptor, d.reserved ≠ 0#23) ∧ (∃ d : Descriptor, d.modeBit = 1#1 ∧ d.opcode ≠ 0x01#8) ∧
    (∃ d : Descriptor, ¬ ((d.opcode = 0x00#8 ∨ 0x0B#8 < d.opcode) ∨ d.reserved ≠ 0#23 ∨
      (d.modeBit = 1#1 ∧ d.opcode ≠ 0x01#8))) := ⟨⟨⟨0, 0, 0, 0⟩, by decide⟩, ⟨⟨0x0C, 0, 0, 0⟩, by decide⟩,
    ⟨⟨0x201, 0, 0, 0⟩, by decide⟩, ⟨⟨0x102, 0, 0, 0⟩, by decide⟩, ⟨⟨0x0B, 0, 0, 0⟩, by decide⟩⟩

theorem witness_StepRunsDecodedCommand :
    (∃ (s : State) (d : Descriptor) (i : Instr), s.inputs = [.issue d] ∧ decodeDescriptor d = .ok i ∧
      i.wellFormed = true) ∧
    (∃ (nbits w : Nat) (i : Instr), decodeTableWord nbits w = some i ∧ i.wellFormed = true) := ⟨⟨{ State.reset with inputs := [.issue ⟨7, 0, 0, 0⟩] }, ⟨7, 0, 0, 0⟩, .erase, by decide⟩, ⟨32, 7, .erase, by decide⟩⟩

theorem witness_BetweenCommands :
    State.reset.inputs = [] ∧
    ({ State.reset with inputs := [.write 0xFFFFFFFF 1] } : State).inputs = [.write 0xFFFFFFFF 1] := ⟨rfl, rfl⟩

theorem witness_EveryDescriptorGetsOneResponse :
    ({ State.reset with inputs := [.issue ⟨0, 0, 0, 0⟩] } : State).inputs = .issue ⟨0, 0, 0, 0⟩ :: [] ∧
    (∀ d, HostEvent.resetEvent .mac96 ≠ .issue d) := ⟨rfl, by simp⟩

theorem witness_RefusedCommandChangesNothing :
    ∃ t rsp, exec .reset State.reset = .next t ∧ t.responses = State.reset.responses ++ [rsp] ∧
      rsp.extractLsb' 0 4 ≠ 0 := ⟨_, _, rfl, rfl, by decide⟩

theorem witness_CommandsKeepStrapAndPlatform :
    ∃ t, exec .erase armedV1 = .next t := ⟨_, rfl⟩

theorem witness_ProgramDeliversItsResponses :
    (inPhase .streaming).inputs = [] := rfl

theorem witness_StepKeepsInvariant :
    Inv (erasedState State.reset) ∧ ∃ t, step (erasedState State.reset) = .next t := 
  ⟨by constructor <;> simp [Keyed, Sessioned, erasedState, State.reset, memWf, memWfFrom], _, rfl⟩

theorem witness_UnsetRegistersNeverMatter :
    SameLive { State.reset with z := ⟨1, 2, 3, 4, 5⟩ } State.reset ∧
    (inPhase .erased).phase = .erased ∧ (inPhase .fresh).phase = .fresh := 
  ⟨by constructor <;> simp [Keyed, Sessioned, State.reset], rfl, rfl⟩

theorem witness_ResetEventSetsRegisters :
    ({ armedV1 with inputs := [.resetEvent .mac96] } : State).inputs = .resetEvent .mac96 :: [] := rfl

theorem witness_ResetDuringProcess :
    ∃ s t u : State, s.inputs = .resetDuring (encode (.process 0x300 0x340 4)) 2 .mac96 :: [] ∧
      exec (.process 0x300 0x340 4) { s with inputs := [] } = .next t ∧ step s = .next u := ⟨{ armedV1 with inputs := [.resetDuring (encode (.process 0x300 0x340 4)) 2 .mac96] }, _, _, rfl, rfl, rfl⟩

/-- The reset event during a descriptor, from the `Armed` state of V1. -/
def resetDuringV1 (d : Descriptor) (written : Nat) : State :=
  { armedV1 with inputs := [.resetDuring d written .mac96] }

theorem witness_ResetDuringOtherCommands :
    (resetDuringV1 ⟨0, 0, 0, 0⟩ 1).inputs = .resetDuring ⟨0, 0, 0, 0⟩ 1 .mac96 :: [] ∧
    (∃ e, decodeDescriptor ⟨0, 0, 0, 0⟩ = .error e) ∧
    (decodeDescriptor (encode .erase) = .ok .erase ∧ (∀ src dst len, Instr.erase ≠ .process src dst len) ∧
      ∀ dst, Instr.erase ≠ .finalize dst) ∧
    decodeDescriptor (encode (.finalize 0x380)) = .ok (.finalize 0x380) ∧
    ∃ t, exec (.finalize 0x380) { resetDuringV1 (encode (.finalize 0x380)) 16 with inputs := [] } = .next t :=
  ⟨rfl, ⟨_, rfl⟩, ⟨by decide, by simp, by simp⟩, by decide, _, rfl⟩

theorem witness_RotlMovesBits :
    1 ≤ 1 ∧ 31 ≤ 31 ∧ 0 < 32 ∧ 31 < 32 := by decide

theorem witness_FeedbackIsThePlaintext :
    0x000000FF#32 &&& byteMask 1 = 0x000000FF ∧ 0xFFFFFFFF#32 &&& byteMask 4 = 0xFFFFFFFF := by decide

theorem witness_StoreThenLoad :
    (0 ≤ 4 ∧ 4 ≤ 4) ∧ (6 + 4 ≤ 10 ∨ 10 + 4 ≤ 6) ∧ (14 + 4 ≤ 10 ∨ 10 + 4 ≤ 14) := by decide

theorem witness_AdmissionIsExact :
    ∃ n m : Nat, n = 0 ∧ 1 ≤ m := ⟨0, 1, rfl, Nat.le_refl 1⟩

theorem witness_SetupKeyCompletes :
    (inPhase .finalized).phase ≠ .erased ∧ (256#32).toNat ≤ 256 ∧ (256#32).toNat % 8 = 0 ∧
    rangeAdmitted (inPhase .finalized).backed 0xFFFFFFE0 ((256#32).toNat / 8) = true ∧
    rangeAdmitted (.regions []) 0xFFFFFFFF ((0#32).toNat / 8) = true := by decide

theorem witness_KeyLoadPlacesEachByte :
    (0 ≤ 256 ∧ 0 % 8 = 0) ∧ (256 ≤ 256 ∧ 256 % 8 = 0) ∧ 3 < 4 := by decide

theorem witness_KeyMixSubround :
    (0 < 8 ∧ 0 % 2 = 0) ∧ (7 < 8 ∧ 7 % 2 = 1) := by decide

theorem witness_BumpValues :
    0 ≤ 256 ∧ 256 ≤ 256 := by decide

theorem witness_SetupKeyRepeatable :
    ∃ t, exec (.setupKey .encrypt 0x100 0) State.reset = .next t ∧
      t.responses = State.reset.responses ++ [0x00000000#32] := ⟨_, rfl, by decide +kernel⟩

theorem witness_SetupNonceCompletes :
    (inPhase .keyReady).phase ≠ .fresh ∧ (inPhase .keyReady).phase ≠ .erased ∧
    rangeAdmitted (inPhase .keyReady).backed 0xFFFFFFF0 16 = true := by decide

theorem witness_NonceInitReadsOnlyKeyAndNonce :
    armedV1.x0 = ({ armedV1 with oldz := #v[1, 2, 3, 4] } : State).x0 ∧
    armedV1.oldz ≠ ({ armedV1 with oldz := #v[1, 2, 3, 4] } : State).oldz := by decide

theorem witness_ResetCommandCompletes :
    (inPhase .armed).phase = .armed ∧ (inPhase .streaming).phase = .streaming ∧ (inPhase .finalized).phase = .finalized := by decide

theorem witness_ResetRepeatsNonceSetup :
    rangeAdmitted armedV1.backed 0x200 16 = true ∧
    ∀ k : Fin 4, armedV1.n[k.val] = memRead armedV1.mem ((0x200#32).toNat + 4 * k.val) 4 := by decide

/-- The state of V1 after its step 2 meets the invariant. -/
theorem inv_armedV1 : Inv armedV1 where
  memory := rfl
  keyBits := by decide
  bump := fun _ => by decide
  aadx := .inr rfl
  armed := fun _ => by decide
  streaming := fun h => nomatch h
  erased := fun h => nomatch h
  pending := fun _ _ => rfl
  schedule := fun _ => by decide
  initialised := fun _ => by decide +kernel

theorem witness_ResetInArmedChangesNothing :
    Inv armedV1 ∧ armedV1.phase = .armed := ⟨inv_armedV1, rfl⟩

theorem witness_ProcessAadCompletes :
    armedV1.phase = .armed ∧ armedV1.aadx ≠ 0 ∧ armedV1.aadLen.toNat % 4 = 0 ∧
    rangeAdmitted armedV1.backed 0xFFFFFFFF 1 = true ∧ rangeAdmitted armedV1.backed 0xFFFFFFFF 0 = true := by decide

theorem witness_ProcessCompletes :
    armedV1.phase = .armed ∧ armedV1.msgLen.toNat % 4 = 0 ∧
    rangeAdmitted armedV1.backed 0x300 10 = true ∧ rangeAdmitted armedV1.backed 0xFFFFFFF6 10 = true := by decide

theorem witness_ChunkedProcessEqualsWhole :
    (8#32).toNat % 4 = 0 ∧ (8#32).toNat + (5#32).toNat < 2 ^ 32 ∧
    rangeAdmitted armedV1.backed 0x300 ((8#32).toNat + (5#32).toNat) = true := by decide

theorem witness_ChunkedAadEqualsWhole :
    armedV1.aadx ≠ 0 ∧ armedV1.aadLen.toNat % 4 = 0 ∧ (4#32).toNat % 4 = 0 ∧
    (4#32).toNat + (3#32).toNat < 2 ^ 32 ∧ rangeAdmitted armedV1.backed 0x300 ((4#32).toNat + (3#32).toNat) = true := by decide

theorem witness_DecryptionInvertsEncryption :
    ∃ e d e' : State, SameCipher e d ∧ e.mode = .encrypt ∧ d.mode = .decrypt ∧ e.phase = .armed ∧ d.phase = .armed ∧
      e.msgLen.toNat % 4 = 0 ∧ d.msgLen.toNat % 4 = 0 ∧ NoForwardOverlap 0x300 0x300 4 ∧ NoForwardOverlap 0x500 0x600 4 ∧
      exec (.process 0x300 0x300 4) e = .next e' ∧
      ∀ k, k < 4 → readByte d.mem (0x500 + k) = readByte e'.mem (0x300 + k) := by
  refine ⟨armedV1, { armedV1 with
    mode := .decrypt
    mem := [(0x500, 0xD5), (0x501, 0x2D), (0x502, 0x45), (0x503, 0xC6)] }, _, ⟨rfl, rfl, rfl, rfl, rfl, rfl⟩, rfl, rfl, rfl,
    rfl, rfl, rfl, .inl (by decide), .inr (by decide), rfl, ?_⟩
  decide +kernel

theorem witness_BackwardOverlapIsSafe :
    (0x2FE#32).toNat ≤ (0x300#32).toNat ∧ (0x300#32).toNat + (12#32).toNat ≤ (0x340#32).toNat ∧
    rangeAdmitted armedV1.backed 0x2FE (12#32).toNat = true ∧ rangeAdmitted armedV1.backed 0x340 (12#32).toNat = true := by decide

theorem witness_MessageClosesAadPhase :
    (∃ t, exec (.process 0 0 0) { armedV1 with phase := .streaming, aadx := 0 } = .next t ∧ t.phase = .streaming) ∧
    (∃ t, exec (.finalize 0) { armedV1 with phase := .streaming, aadx := 0 } = .next t ∧ t.phase = .finalized) ∧
    ∃ t, exec (.process 0 0 0) armedV1 = .next t ∧ t.responses = armedV1.responses ++ [0x00000000#32] := ⟨⟨_, rfl, rfl⟩, ⟨_, rfl, rfl⟩, ⟨_, rfl, rfl⟩⟩

theorem witness_DataAcceptanceTable :
    Inv armedV1 ∧ armedV1.phase = .armed ∧ rangeAdmitted armedV1.backed 0x300 8 = true ∧
    rangeAdmitted armedV1.backed 0xFFFFFFF0 8 = true ∧
    rangeAdmitted armedV1.backed 0xFFFFFFF0 (macBytes armedV1.macSize) = true := ⟨inv_armedV1, by decide⟩

theorem witness_FinalizeCompletes :
    rangeAdmitted armedV1.backed 0xFFFFFFF0 (macBits armedV1.macSize / 8) = true ∧
    rangeAdmitted armedV1.backed 0xFFFFFFF4 (macBits .mac96 / 8) = true ∧ armedV1.phase = .armed := by decide

theorem witness_MacIgnoresModeAndBuffers :
    SameCipher armedV1 { armedV1 with mode := .decrypt } ∧
    (∃ s', exec (.finalize 0x380) armedV1 = .next s') ∧
    ∃ t', exec (.finalize 0x3A0) { armedV1 with mode := .decrypt } = .next t' := ⟨⟨rfl, rfl, rfl, rfl, rfl, rfl⟩, ⟨_, rfl⟩, ⟨_, rfl⟩⟩

theorem witness_EmptySessionsAgree :
    armedV1.phase = .armed ∧ armedV1.msgLen.toNat % 4 = 0 ∧
    rangeAdmitted armedV1.backed 0x380 (macBytes armedV1.macSize) = true := by decide

theorem witness_QueriesAnswer :
    armedV1.macSize = .mac128 ∧ ({ armedV1 with macSize := .mac96 } : State).macSize = .mac96 := ⟨rfl, rfl⟩

theorem witness_SequenceRefusals :
    (∃ t, exec .erase (inPhase .erased) = .next t) ∧ (inPhase .erased).phase = .erased ∧
    (inPhase .keyReady).phase = .keyReady ∧ (inPhase .fresh).phase = .fresh := ⟨⟨_, rfl⟩, rfl, rfl, rfl⟩

theorem witness_InvalidKeySizeRefusal :
    (inPhase .fresh).phase ≠ .erased ∧ (264#32).toNat > 256 ∧ (12#32).toNat % 8 ≠ 0 ∧
    (∀ mode src kbits, Instr.erase ≠ .setupKey mode src kbits) ∧ ∃ t, exec .erase State.reset = .next t := ⟨by decide, by decide, by decide, by simp, _, rfl⟩

theorem witness_InvalidNonceSizeRefusal :
    (inPhase .keyReady).phase ≠ .fresh ∧ (inPhase .keyReady).phase ≠ .erased ∧ (96#32 : Word) ≠ 128 ∧
    (∀ src nbits, Instr.erase ≠ .setupNonce src nbits) ∧ ∃ t, exec .erase State.reset = .next t := ⟨by decide, by decide, by decide, by simp, _, rfl⟩

theorem witness_MisalignedDataRefusals :
    armedV1.phase = .armed ∧ ({ armedV1 with aadx := 0 } : State).aadx = 0 ∧
    ({ armedV1 with aadLen := 3 } : State).aadLen.toNat % 4 ≠ 0 ∧
    ({ armedV1 with msgLen := 1 } : State).msgLen.toNat % 4 ≠ 0 ∧
    (∀ src len, Instr.erase ≠ .processAad src len) ∧ (∀ src dst len, Instr.erase ≠ .process src dst len) ∧
    ∃ t, exec .erase armedV1 = .next t := ⟨rfl, rfl, by decide, by decide, by simp, by simp, _, rfl⟩

theorem witness_BadAccessRefusals :
    rangeAdmitted armedV1.backed 0xFFFFFFE1 ((256#32).toNat / 8) = false ∧
    rangeAdmitted armedV1.backed 0xFFFFFFF1 16 = false ∧ armedV1.aadx ≠ 0 ∧
    rangeAdmitted armedV1.backed 0xFFFFFFFF (2#32).toNat = false ∧
    rangeAdmitted (.regions [⟨0, 16⟩]) 15 (2#32).toNat = false ∧
    rangeAdmitted armedV1.backed 0xFFFFFFF1 (macBits armedV1.macSize / 8) = false := by decide

theorem witness_CommandsThatNeverFail :
    Instr.getMacSize = .getMacSize := rfl

end Sys2Proof.Tests
end

section
/-!
Encoding (spec/30_encoding.md R61 to R66): a `W0` taken apart into its three fields, the four cases of
`decodeDescriptor`, and the rows of the opcode map.
-/

namespace Sys2Proof

/-! A word by the fields of `W0` (R61). -/

/-- A word is its fields put back in their places (R61). -/
theorem fields_append_eq (w : Word) :
    (w.extractLsb' 9 23 ++ w.extractLsb' 8 1) ++ w.extractLsb' 0 8 = w := by
  rw [BitVec.extractLsb'_append_extractLsb'_eq_extractLsb' (start₁ := 8) (len₁ := 1) rfl,
    BitVec.extractLsb'_append_extractLsb'_eq_extractLsb' (start₁ := 0) (len₁ := 8) rfl, BitVec.extractLsb'_eq_self]

theorem word_eq_iff_fields {v w : Word} :
    v = w ↔ v.extractLsb' 9 23 = w.extractLsb' 9 23 ∧ v.extractLsb' 8 1 = w.extractLsb' 8 1 ∧
      v.extractLsb' 0 8 = w.extractLsb' 0 8 := by
  constructor
  · rintro rfl
    exact ⟨rfl, rfl, rfl⟩
  · rintro ⟨hres, hmode, hop⟩
    rw [← fields_append_eq v, hres, hmode, hop, fields_append_eq]

/-- The mask of `SETUP_KEY` covers every bit but `MODE`, so its row fixes the other two fields (R64). -/
theorem w0_matches_setupKey_iff {d : Descriptor} :
    d.w0 &&& 0xFFFFFEFF#32 = 0x00000001#32 ↔ d.reserved = 0#23 ∧ d.opcode = 0x01#8 := by
  have hres : (0xFFFFFEFF#32).extractLsb' 9 23 = BitVec.allOnes 23 := by decide
  have hmode : (0xFFFFFEFF#32).extractLsb' 8 1 = 0#1 := by decide
  have hop : (0xFFFFFEFF#32).extractLsb' 0 8 = BitVec.allOnes 8 := by decide
  simp only [word_eq_iff_fields, BitVec.extractLsb'_and, hres, hmode, hop, BitVec.and_allOnes, BitVec.and_zero]
  exact ⟨fun ⟨hr, _, ho⟩ => ⟨hr, ho⟩, fun ⟨hr, ho⟩ => ⟨hr, rfl, ho⟩⟩

/-- The `W0` of a row with the full mask, field by field (R64). -/
theorem w0_eq_w0OfOpcode_iff {d : Descriptor} {op : Byte} :
    d.w0 = w0OfOpcode op ↔ d.reserved = 0#23 ∧ d.modeBit = 0#1 ∧ d.opcode = op := by
  have hw : w0OfOpcode op = (0#23 ++ 0#1) ++ op := BitVec.setWidth_eq_append (by decide)
  have hres : (w0OfOpcode op).extractLsb' 9 23 = 0#23 := by
    rw [hw, BitVec.extractLsb'_append_eq_of_le (by decide)]; rfl
  have hmode : (w0OfOpcode op).extractLsb' 8 1 = 0#1 := by
    rw [hw, BitVec.extractLsb'_append_eq_of_le (by decide)]; rfl
  have hop : (w0OfOpcode op).extractLsb' 0 8 = op := by rw [hw, BitVec.extractLsb'_append_eq_right]
  rw [word_eq_iff_fields, hres, hmode, hop]
  rfl

theorem w0OfOpcode_le_iff {a b : Byte} : w0OfOpcode a ≤ w0OfOpcode b ↔ a ≤ b := by
  unfold w0OfOpcode
  bv_omega

theorem modeOfBit_modeBit (d : Descriptor) :
    modeOfBit d.modeBit = if d.w0.getLsbD 8 then .decrypt else .encrypt := by
  have hbit : d.modeBit = 1#1 ↔ d.w0.getLsbD 8 = true := by
    rw [BitVec.getLsbD_eq_extractLsb', beq_iff_eq, Descriptor.modeBit]
  exact if_congr hbit rfl rfl

/-! The cases of `decodeDescriptor`, in the order of R66. -/

theorem decodeDescriptor_of_reserved {d : Descriptor} (hres : d.reserved ≠ 0#23) :
    decodeDescriptor d = .error .reservedBits := by
  rw [decodeDescriptor, if_pos hres]

theorem decodeDescriptor_of_setupKey {d : Descriptor} (hres : d.reserved = 0#23) (hop : d.opcode = 0x01#8) :
    decodeDescriptor d = .ok (.setupKey (modeOfBit d.modeBit) d.w1 d.w3) := by
  rw [decodeDescriptor, if_neg (not_not_intro hres), if_pos hop]

theorem decodeDescriptor_of_modeBit {d : Descriptor} (hres : d.reserved = 0#23) (hop : d.opcode ≠ 0x01#8)
    (hmode : d.modeBit = 1#1) : decodeDescriptor d = .error .modeBit := by
  rw [decodeDescriptor, if_neg (not_not_intro hres), if_neg hop, if_pos hmode]

theorem decodeDescriptor_of_w0OfOpcode {d : Descriptor} {op : Byte} (hw0 : d.w0 = w0OfOpcode op)
    (hop : op ≠ 0x01#8) : decodeDescriptor d = commandOfOpcode op d.w1 d.w2 d.w3 := by
  obtain ⟨hres, hmode, rfl⟩ := w0_eq_w0OfOpcode_iff.mp hw0
  rw [decodeDescriptor, if_neg (not_not_intro hres), if_neg hop, if_neg (by rw [hmode]; decide)]

/-- Outside `0x02 .. 0x0B` an opcode other than `SETUP_KEY`'s is unassigned (R65). -/
theorem commandOfOpcode_of_unassigned {op : Byte} (hop : ¬ (0x02#8 ≤ op ∧ op ≤ 0x0B#8)) (src dst len : Word) :
    commandOfOpcode op src dst len = .error .opcode := by
  have hne : ∀ k, 0x02#8 ≤ k → k ≤ 0x0B#8 → op ≠ k := by
    rintro k hlo hhi rfl
    exact hop ⟨hlo, hhi⟩
  simp [commandOfOpcode, hne]

/-! The opcode map (R64). -/

/-- A row whose mask is every bit of `W0`: its opcode alone picks the command (R64). -/
theorem decodeDescriptor_of_fullMaskRow {d : Descriptor} {op : Byte}
    (hrow : d.w0 &&& 0xFFFFFFFF#32 = w0OfOpcode op) (hop : op ≠ 0x01#8) :
    decodeDescriptor d = commandOfOpcode op d.w1 d.w2 d.w3 :=
  decodeDescriptor_of_w0OfOpcode (BitVec.and_allOnes.symm.trans hrow) hop

theorem decodeDescriptor_of_setupKeyRow {d : Descriptor} (hrow : d.w0 &&& 0xFFFFFEFF#32 = 0x00000001#32) :
    decodeDescriptor d =
      .ok (.setupKey (if d.w0.getLsbD 8 then .decrypt else .encrypt) d.w1 d.w3) := by
  obtain ⟨hres, hop⟩ := w0_matches_setupKey_iff.mp hrow
  rw [decodeDescriptor_of_setupKey hres hop, modeOfBit_modeBit]

/-- A `W0` of no row fails one of the checks of R66: a reserved bit, the `MODE` bit, or the opcode (R65). -/
theorem decodeDescriptor_of_noRow {d : Descriptor} (hkey : d.w0 &&& 0xFFFFFEFF#32 ≠ 0x00000001#32)
    (hrest : ¬ (0x00000002#32 ≤ d.w0 ∧ d.w0 ≤ 0x0000000B#32)) : ∃ e, decodeDescriptor d = .error e := by
  by_cases hres : d.reserved = 0#23
  case neg => exact ⟨_, decodeDescriptor_of_reserved hres⟩
  have hop : d.opcode ≠ 0x01#8 := fun hop => hkey (w0_matches_setupKey_iff.mpr ⟨hres, hop⟩)
  rcases BitVec.eq_zero_or_eq_one d.modeBit with hmode | hmode
  · have hw0 : d.w0 = w0OfOpcode d.opcode := w0_eq_w0OfOpcode_iff.mpr ⟨hres, hmode, rfl⟩
    have hunassigned : ¬ (0x02#8 ≤ d.opcode ∧ d.opcode ≤ 0x0B#8) := by
      rw [← w0OfOpcode_le_iff, ← w0OfOpcode_le_iff, ← hw0]
      exact hrest
    rw [decodeDescriptor_of_w0OfOpcode hw0 hop]
    exact ⟨_, commandOfOpcode_of_unassigned hunassigned d.w1 d.w2 d.w3⟩
  · exact ⟨_, decodeDescriptor_of_modeBit hres hop hmode⟩

/-- Settles O2: the row of `SETUP_KEY`, the ten rows with the full mask in the order of their opcodes, and no row. -/
theorem opcodeMapDecodes : Obligations.OpcodeMapDecodes := fun _ =>
  ⟨decodeDescriptor_of_setupKeyRow,
    fun hrow => decodeDescriptor_of_fullMaskRow (op := 0x02#8) hrow (by decide),
    fun hrow => decodeDescriptor_of_fullMaskRow (op := 0x03#8) hrow (by decide),
    fun hrow => decodeDescriptor_of_fullMaskRow (op := 0x04#8) hrow (by decide),
    fun hrow => decodeDescriptor_of_fullMaskRow (op := 0x05#8) hrow (by decide),
    fun hrow => decodeDescriptor_of_fullMaskRow (op := 0x06#8) hrow (by decide),
    fun hrow => decodeDescriptor_of_fullMaskRow (op := 0x07#8) hrow (by decide),
    fun hrow => decodeDescriptor_of_fullMaskRow (op := 0x08#8) hrow (by decide),
    fun hrow => decodeDescriptor_of_fullMaskRow (op := 0x09#8) hrow (by decide),
    fun hrow => decodeDescriptor_of_fullMaskRow (op := 0x0A#8) hrow (by decide),
    fun hrow => decodeDescriptor_of_fullMaskRow (op := 0x0B#8) hrow (by decide),
    fun ⟨hkey, hrest⟩ => decodeDescriptor_of_noRow hkey hrest⟩

end Sys2Proof
end

section
/-!
The mixing network (spec/40_mixing_primitives.md R81 to R86) and the byte masks (R90): the rotation undone, the one form
that the ten steps of the step groups share, and the facts of R86.
-/

namespace Sys2Proof

open Machine

/-! The rotation. -/

theorem getLsbD_rotl (x : Word) {n k : Nat} (hn : n ≤ 32) (hk : k < 32) :
    (rotl x n).getLsbD k = if k < n then x.getLsbD (32 - n + k) else x.getLsbD (k - n) := by
  by_cases hkn : k < n
  · simp [rotl, hk, hkn]
  · have hbeyond : 32 ≤ 32 - n + k := by omega
    rw [if_neg hkn, rotl, BitVec.getLsbD_or, BitVec.getLsbD_shiftLeft, BitVec.getLsbD_ushiftRight,
      BitVec.getLsbD_of_ge x _ hbeyond]
    simp [hk, hkn]

/-- A rotation by the rest of the word undoes a rotation (R81). -/
theorem rotl_rotl_sub (x : Word) {n : Nat} (hn : n ≤ 32) : rotl (rotl x n) (32 - n) = x := by
  apply BitVec.eq_of_getLsbD_eq
  intro k hk
  rw [getLsbD_rotl _ (Nat.sub_le 32 n) hk]
  split
  case isTrue hlow =>
    rw [getLsbD_rotl x hn (by omega), if_neg (by omega)]
    congr 1
    omega
  case isFalse hhigh =>
    rw [getLsbD_rotl x hn (by omega), if_pos (by omega)]
    congr 1
    omega

theorem rotl_bijective {n : Nat} (hn : n ≤ 32) : Function.Bijective (rotl · n) := by
  refine Function.bijective_iff_has_inverse.mpr ⟨(rotl · (32 - n)), fun x => rotl_rotl_sub x hn, fun x => ?_⟩
  have hback := rotl_rotl_sub x (Nat.sub_le 32 n)
  rwa [Nat.sub_sub_self hn] at hback

theorem xor_right_bijective (c : Word) : Function.Bijective (· ^^^ c) :=
  Function.Involutive.bijective fun x => by rw [BitVec.xor_assoc, BitVec.xor_self, BitVec.xor_zero]

/-! The form the ten steps share: a step on `Z0` and `Z3`, after which the words are moved round by one place. -/

/-- The form of every step (R86): `Z0` takes a new value that depends on `Z3`, and `Z3` is rotated by `n`. Each word then
moves down by one place, `Z0` to the end, which brings the two words of a group's next step to `Z0` and `Z3`. -/
def crossStep (f : Word → Word → Word) (n : Nat) (z : Acc) : Acc :=
  ⟨z.z1, z.z2, rotl z.z3 n, z.z4, f z.z3 z.z0⟩

/-- A step is undone from its end: first the rotation, which gives back the `Z3` that the change of `Z0` depended on. -/
theorem crossStep_bijective {f : Word → Word → Word} {n : Nat} (hf : ∀ y, Function.Bijective (f y)) (hn : n ≤ 32) :
    Function.Bijective (crossStep f n) := by
  constructor
  case left =>
    rintro ⟨a, b, c, d, e⟩ ⟨a', b', c', d', e'⟩ heq
    obtain ⟨rfl, rfl, hrotated, rfl, hchanged⟩ := Acc.mk.inj heq
    obtain rfl : d = d' := (rotl_bijective hn).injective hrotated
    obtain rfl : a = a' := (hf d).injective hchanged
    rfl
  case right =>
    rintro ⟨b, c, rotated, e, changed⟩
    obtain ⟨d, rfl⟩ := (rotl_bijective hn).surjective rotated
    obtain ⟨a, rfl⟩ := (hf d).surjective changed
    exact ⟨⟨a, b, c, d, e⟩, rfl⟩

theorem crossStep_add_bijective (g : Word → Word) {n : Nat} (hn : n ≤ 32) :
    Function.Bijective (crossStep (fun y x => x + g y) n) :=
  crossStep_bijective (fun y => AddGroup.addRight_bijective (g y)) hn

theorem crossStep_xor_bijective (g : Word → Word) {n : Nat} (hn : n ≤ 32) :
    Function.Bijective (crossStep (fun y x => x ^^^ g y) n) :=
  crossStep_bijective (fun y => xor_right_bijective (g y)) hn

/-! The step groups. -/

/-- `GA` by the shared form (R83); after its five moves every word is in its own place again. -/
theorem stepGroupA_eq_crossSteps (p : Word) :
    stepGroupA p =
      crossStep (fun y x => x + y) 17 ∘ crossStep (fun y x => x ^^^ y) 10 ∘
      crossStep (fun y x => x ^^^ y) 9 ∘ crossStep (fun y x => x + y) 25 ∘
      crossStep (fun y x => x + (y ^^^ p)) 15 := rfl

/-- `GB` by the shared form (R84). -/
theorem stepGroupB_eq_crossSteps (w : Word) :
    stepGroupB w =
      crossStep (fun y x => x ^^^ y) 5 ∘ crossStep (fun y x => x + y) 11 ∘
      crossStep (fun y x => x + y) 20 ∘ crossStep (fun y x => x ^^^ y) 13 ∘
      crossStep (fun y x => x ^^^ (y + w)) 30 := rfl

/-- R86 (b) for `GA`. -/
theorem stepGroupA_bijective (p : Word) : Function.Bijective (stepGroupA p) := by
  rw [stepGroupA_eq_crossSteps]
  have step1 := crossStep_add_bijective (· ^^^ p) (n := 15) (by decide)
  have step2 := crossStep_add_bijective id (n := 25) (by decide)
  have step3 := crossStep_xor_bijective id (n := 9) (by decide)
  have step4 := crossStep_xor_bijective id (n := 10) (by decide)
  have step5 := crossStep_add_bijective id (n := 17) (by decide)
  exact step5.comp (step4.comp (step3.comp (step2.comp step1)))

/-- R86 (b) for `GB`. -/
theorem stepGroupB_bijective (w : Word) : Function.Bijective (stepGroupB w) := by
  rw [stepGroupB_eq_crossSteps]
  have step1 := crossStep_xor_bijective (· + w) (n := 30) (by decide)
  have step2 := crossStep_xor_bijective id (n := 13) (by decide)
  have step3 := crossStep_add_bijective id (n := 20) (by decide)
  have step4 := crossStep_add_bijective id (n := 11) (by decide)
  have step5 := crossStep_xor_bijective id (n := 5) (by decide)
  exact step5.comp (step4.comp (step3.comp (step2.comp step1)))

/-- Settles O20: the steps of the model, run in order on the five words, leave R83's and R84's values. -/
theorem stepGroupsComputeTheTenSteps : Obligations.StepGroupsComputeTheTenSteps :=
  ⟨fun _ _ _ _ _ _ => rfl, fun _ _ _ _ _ _ => rfl⟩

/-! The data injection (R86). -/

/-- Only the value added to `Z0` in step 1 depends on the data word, so a changed `Z0` stands in for it. -/
theorem gaStep1_eq_injection_into_z0 (p : Word) (z : Acc) :
    gaStep1 p z = gaStep1 0 { z with z0 := z.z0 + (z.z3 ^^^ p) - z.z3 } := by
  have hz0 : z.z0 + (z.z3 ^^^ p) = z.z0 + (z.z3 ^^^ p) - z.z3 + (z.z3 ^^^ 0#32) := by
    rw [BitVec.xor_zero, BitVec.sub_add_cancel]
  exact congrArg (fun w => { z with z0 := w, z3 := rotl z.z3 15 : Acc }) hz0

theorem stepGroupA_eq_injection_into_z0 (p : Word) (z : Acc) :
    stepGroupA p z = stepGroupA 0 { z with z0 := z.z0 + (z.z3 ^^^ p) - z.z3 } := by
  rw [stepGroupA, gaStep1_eq_injection_into_z0, ← stepGroupA]

/-- From the all-zero state the injected word 1 leaves `Z3` at 0, where the same word in `Z3` is rotated to `2^15`. -/
theorem stepGroupA_one_ne_injection_into_z3 :
    stepGroupA 1 ⟨0, 0, 0, 0, 0⟩ ≠ stepGroupA 0 ⟨0, 0, 0, 0 ^^^ 1, 0⟩ := by
  have hz3 : (stepGroupA 1 ⟨0, 0, 0, 0, 0⟩).z3 ≠ (stepGroupA 0 ⟨0, 0, 0, 0 ^^^ 1, 0⟩).z3 := by decide
  exact fun heq => hz3 (congrArg Acc.z3 heq)

/-- Settles O21: the fixed point by running `H`, the bijections step by step, the data word through step 1 of `GA`. -/
theorem mixingNetworkFacts : Obligations.MixingNetworkFacts :=
  ⟨by decide, stepGroupA_bijective, stepGroupB_bijective, stepGroupA_eq_injection_into_z0,
    ⟨1, ⟨0, 0, 0, 0, 0⟩, stepGroupA_one_ne_injection_into_z3⟩⟩

/-! The byte masks. -/

/-- Settles O25: `2^(8·nb) − 1` worked out for the four byte counts. -/
theorem byteMasks : Obligations.ByteMasks := ⟨by decide, by decide, by decide, by decide⟩

end Sys2Proof
end

section
/-!
The setup commands (spec/41_setup_commands.md): the value of `BUMP` (R102).
-/

namespace Sys2Proof

open Machine

/-! `BUMP`: a 128-bit MAC adds nothing to half the key length, a 96-bit MAC adds `0x6000`. -/

theorem bumpOf_eq (kbits : Nat) (m : MacSize) :
    bumpOf kbits m = BitVec.ofNat 32 (kbits / 2) + (BitVec.ofNat 32 (macBits m % 128) <<< 8) := rfl

theorem bumpOf_mac128 (kbits : Nat) : bumpOf kbits .mac128 = BitVec.ofNat 32 (kbits / 2) := by
  have hterm : BitVec.ofNat 32 (macBits .mac128 % 128) <<< 8 = 0#32 := by decide
  rw [bumpOf_eq, hterm, BitVec.add_zero]

theorem bumpOf_mac96 (kbits : Nat) : bumpOf kbits .mac96 = BitVec.ofNat 32 (kbits / 2) + 0x00006000#32 := by
  have hterm : BitVec.ofNat 32 (macBits .mac96 % 128) <<< 8 = 0x00006000#32 := by decide
  rw [bumpOf_eq, hterm]

/-- Settles O32: the formula is the model's own, its MAC term worked out per strap gives the two simpler forms, and the
four examples are instances of those. -/
theorem bumpValues : Obligations.BumpValues :=
  ⟨fun kbits _ => ⟨bumpOf_mac128 kbits, bumpOf_mac96 kbits, bumpOf_eq kbits⟩,
    bumpOf_mac128 0, bumpOf_mac128 256, bumpOf_mac96 128, bumpOf_mac96 40⟩

end Sys2Proof
end

section
/-!
The queries (spec/43_finalize_erase_query.md R142 to R145): each only responds, with a size in bytes as `VAL`.
-/

namespace Sys2Proof

open Machine

/-! The value each query responds. -/

theorem exec_getKeySize (s : State) : exec .getKeySize s = respondValue (BitVec.ofNat 8 (keyMaxBits / 8)) s := rfl

theorem exec_getNonceSize (s : State) : exec .getNonceSize s = respondValue (BitVec.ofNat 8 (nonceBits / 8)) s := rfl

theorem exec_getWordSize (s : State) : exec .getWordSize s = respondValue (BitVec.ofNat 8 wordBytes) s := rfl

theorem exec_getMacSize (s : State) : exec .getMacSize s = respondValue (BitVec.ofNat 8 (macBytes s.macSize)) s := rfl

/-! The response words: `CODE = 0`, the size in bits 15:8 (R68). -/

theorem responseWord_keySize : responseWord .ok (BitVec.ofNat 8 (keyMaxBits / 8)) = 0x00002000#32 := by decide

theorem responseWord_nonceSize : responseWord .ok (BitVec.ofNat 8 (nonceBits / 8)) = 0x00001000#32 := by decide

theorem responseWord_wordSize : responseWord .ok (BitVec.ofNat 8 wordBytes) = 0x00000400#32 := by decide

theorem responseWord_mac96 : responseWord .ok (BitVec.ofNat 8 (macBytes .mac96)) = 0x00000C00#32 := by decide

theorem responseWord_mac128 : responseWord .ok (BitVec.ofNat 8 (macBytes .mac128)) = 0x00001000#32 := by decide

/-- A command that only responds adds its response word to the list and changes nothing else (R67, R68). -/
theorem respondValue_eq_append {v : Byte} {rsp : Word} (hword : responseWord .ok v = rsp) (s : State) :
    respondValue v s = .next { s with responses := s.responses ++ [rsp] } := by
  rw [respondValue_eq, hword, deliver]

/-- Settles O52: each query is its response and nothing more; `GET_MAC_SIZE` by the strap. -/
theorem queriesAnswer : Obligations.QueriesAnswer := by
  intro s
  refine ⟨?keySize, ?nonceSize, ?wordSize, fun hstrap => ?mac96, fun hstrap => ?mac128⟩
  case keySize => rw [exec_getKeySize, respondValue_eq_append responseWord_keySize]
  case nonceSize => rw [exec_getNonceSize, respondValue_eq_append responseWord_nonceSize]
  case wordSize => rw [exec_getWordSize, respondValue_eq_append responseWord_wordSize]
  case mac96 =>
    rw [exec_getMacSize, respondValue_eq_append (by rw [hstrap, responseWord_mac96])]
  case mac128 =>
    rw [exec_getMacSize, respondValue_eq_append (by rw [hstrap, responseWord_mac128])]

end Sys2Proof
end

section
/-!
Undecodable descriptors (spec/60_exceptions.md R165): the three conditions of R165 are exactly the failures of
`decodeDescriptor`.
-/

namespace Sys2Proof

open Machine

/-- With the other fields legal, decoding is R64's map of the opcode (R66). -/
theorem decodeDescriptor_of_clearFields {d : Descriptor} (hres : d.reserved = 0#23) (hop : d.opcode ≠ 0x01#8)
    (hmode : d.modeBit ≠ 1#1) : decodeDescriptor d = commandOfOpcode d.opcode d.w1 d.w2 d.w3 := by
  rw [decodeDescriptor, if_neg (not_not_intro hres), if_neg hop, if_neg hmode]

theorem commandOfOpcode_of_assigned {op : Byte} (hlo : 0x02#8 ≤ op) (hhi : op ≤ 0x0B#8) (src dst len : Word) :
    ∃ i, commandOfOpcode op src dst len = .ok i := by
  have hrows : op = 0x02#8 ∨ op = 0x03#8 ∨ op = 0x04#8 ∨ op = 0x05#8 ∨ op = 0x06#8 ∨ op = 0x07#8 ∨
      op = 0x08#8 ∨ op = 0x09#8 ∨ op = 0x0A#8 ∨ op = 0x0B#8 := by
    bv_omega
  rcases hrows with rfl | rfl | rfl | rfl | rfl | rfl | rfl | rfl | rfl | rfl <;> exact ⟨_, rfl⟩

/-- R165's conditions: an unassigned opcode, a reserved bit, or the `MODE` bit without `SETUP_KEY`'s opcode. -/
def Descriptor.Illegal (d : Descriptor) : Prop :=
  (d.opcode = 0x00#8 ∨ 0x0B#8 < d.opcode) ∨ d.reserved ≠ 0#23 ∨ (d.modeBit = 1#1 ∧ d.opcode ≠ 0x01#8)

/-- Each condition stops the decoder, at the latest at the check that is its own. -/
theorem decodeDescriptor_error_of_illegal {d : Descriptor} (hillegal : d.Illegal) :
    ∃ e, decodeDescriptor d = .error e := by
  by_cases hres : d.reserved = 0#23
  case neg => exact ⟨_, decodeDescriptor_of_reserved hres⟩
  have hop : d.opcode ≠ 0x01#8 := by
    intro hop
    simp [Descriptor.Illegal, hop, hres] at hillegal
  by_cases hmode : d.modeBit = 1#1
  case pos => exact ⟨_, decodeDescriptor_of_modeBit hres hop hmode⟩
  have hopcode : d.opcode = 0x00#8 ∨ 0x0B#8 < d.opcode :=
    hillegal.resolve_right fun hother => hother.elim (· hres) fun ⟨hone, _⟩ => hmode hone
  have hunassigned : ¬ (0x02#8 ≤ d.opcode ∧ d.opcode ≤ 0x0B#8) := by bv_omega
  rw [decodeDescriptor_of_clearFields hres hop hmode]
  exact ⟨_, commandOfOpcode_of_unassigned hunassigned d.w1 d.w2 d.w3⟩

theorem decodeDescriptor_ok_of_legal {d : Descriptor} (hlegal : ¬ d.Illegal) : ∃ i, decodeDescriptor d = .ok i := by
  obtain ⟨hopcode, hreserved, hmodeBit⟩ := by simpa only [Descriptor.Illegal, not_or] using hlegal
  have hres : d.reserved = 0#23 := not_not.mp hreserved
  by_cases hop : d.opcode = 0x01#8
  case pos => exact ⟨_, decodeDescriptor_of_setupKey hres hop⟩
  have hmode : d.modeBit ≠ 1#1 := fun hone => hmodeBit ⟨hone, hop⟩
  rw [decodeDescriptor_of_clearFields hres hop hmode]
  exact commandOfOpcode_of_assigned (by bv_omega) (by bv_omega) d.w1 d.w2 d.w3

/-- A refused command adds its response word, `CODE` with `VAL = 0`, and changes nothing else (R68, R168). -/
theorem failCommand_eq_append {c : Code} {rsp : Word} (hword : responseWord c 0 = rsp) (s : State) :
    failCommand c s = .next { s with responses := s.responses ++ [rsp] } := by
  rw [failCommand_eq, hword, deliver]

/-- Settles O5: the decoder fails on each condition of R165 and on nothing else, and its failure is answered before the
state is looked at. -/
theorem badCommandRefusal : Obligations.BadCommandRefusal := by
  intro d s
  refine ⟨fun hillegal => ?refused, decodeDescriptor_ok_of_legal⟩
  case refused =>
    obtain ⟨e, herror⟩ := decodeDescriptor_error_of_illegal hillegal
    rw [execDescriptor_of_error herror, failCommand_eq_append (rsp := 0x00000005#32) (by decide)]

end Sys2Proof
end

section
/-!
The refused commands (spec/60_exceptions.md R160 to R171): the checks of every command as R180's table lists them, the
proof that `exec` answers the first one that fails, and which codes a command can answer at all.
-/

namespace Sys2Proof

open Machine

/-! The checks of a command. -/

/-- R180's table: the checks of each command in R167's order, each the code it answers and whether it passes. -/
def commandChecks : Instr → State → List (Code × Bool)
  | .setupKey _ src kbits, s =>
    [(.badSequence, legalSetupKey s.phase), (.invalidKeySize, keySizeValid kbits),
      (.badAccess, rangeAdmitted s.backed src (kbits.toNat / 8))]
  | .setupNonce src nbits, s =>
    [(.badSequence, legalSetupNonce s.phase), (.invalidNonceSize, nonceSizeValid nbits),
      (.badAccess, rangeAdmitted s.backed src 16)]
  | .processAad src len, s =>
    [(.badSequence, legalData s.phase), (.misalignedData, !msgBegun s), (.misalignedData, !aadShort s),
      (.badAccess, rangeAdmitted s.backed src len.toNat)]
  | .process src dst len, s =>
    [(.badSequence, legalData s.phase), (.misalignedData, !msgShort s),
      (.badAccess, rangeAdmitted s.backed src len.toNat && rangeAdmitted s.backed dst len.toNat)]
  | .finalize dst, s =>
    [(.badSequence, legalData s.phase), (.badAccess, rangeAdmitted s.backed dst (macBytes s.macSize))]
  | .reset, s => [(.badSequence, legalReset s.phase)]
  | .erase, _ => []
  | .getKeySize, _ => []
  | .getNonceSize, _ => []
  | .getWordSize, _ => []
  | .getMacSize, _ => []

/-- The code of the first check that fails (R167), none where all pass. -/
def firstFailure : List (Code × Bool) → Option Code
  | [] => none
  | (c, passes) :: rest => if passes = false then some c else firstFailure rest

@[simp] theorem firstFailure_nil : firstFailure [] = none := rfl

theorem firstFailure_cons (c : Code) (passes : Bool) (rest : List (Code × Bool)) :
    firstFailure ((c, passes) :: rest) = if passes = false then some c else firstFailure rest := rfl

/-- A code is answered by the first check where it is that check's own, by a later one where the first check passes. -/
@[simp] theorem firstFailure_cons_eq_some_iff {c k : Code} {passes : Bool} {rest : List (Code × Bool)} :
    firstFailure ((k, passes) :: rest) = some c ↔
      (passes = false ∧ k = c) ∨ (passes = true ∧ firstFailure rest = some c) := by
  cases passes <;> simp [firstFailure_cons]

/-! What a command answers. -/

/-- An accepted command ends with an `OK` response after those delivered before (R67, R68). -/
def AcceptedFrom (s : State) (o : Host.Outcome State Fault Refusal) : Prop :=
  ∃ u v, o = respondValue v u ∧ u.responses = s.responses

/-- The outcome is what the checks allow: the refusal with the code of the first failure, or an accepted command's
(R160, R167). -/
def AnswersChecks (checks : List (Code × Bool)) (s : State) (o : Host.Outcome State Fault Refusal) : Prop :=
  match firstFailure checks with
  | some c => o = failCommand c s
  | none => AcceptedFrom s o

theorem answersChecks_nil {s u : State} (v : Byte) (hresponses : u.responses = s.responses) :
    AnswersChecks [] s (respondValue v u) := ⟨u, v, rfl, hresponses⟩

theorem answersChecks_cons {c : Code} {passes : Bool} {rest : List (Code × Bool)} {s : State}
    {o : Host.Outcome State Fault Refusal} (hrest : AnswersChecks rest s o) :
    AnswersChecks ((c, passes) :: rest) s (if passes = false then failCommand c s else o) := by
  cases passes
  case false => exact rfl
  case true => exact hrest

theorem answersChecks_cons_not {c : Code} {fails : Bool} {rest : List (Code × Bool)} {s : State}
    {o : Host.Outcome State Fault Refusal} (hrest : AnswersChecks rest s o) :
    AnswersChecks ((c, !fails) :: rest) s (if fails then failCommand c s else o) := by
  cases fails
  case false => exact hrest
  case true => exact rfl

/-! An accepted data command delivers nothing but its own response. -/

@[simp] theorem absorbedState_responses (src len : Word) (s : State) :
    (absorbedState src len s).responses = s.responses := by
  obtain ⟨z, oldz, hstate⟩ := absorbedState_spec src len s
  rw [hstate]

@[simp] theorem processedState_responses (src dst len : Word) (s : State) :
    (processedState src dst len s).responses = s.responses := by
  obtain ⟨z, oldz, m, hstate⟩ := processedState_spec src dst len s
  rw [hstate]

@[simp] theorem finalizedState_responses (dst : Word) (s : State) :
    (finalizedState dst s).responses = s.responses := by
  obtain ⟨z, oldz, buf, m, hstate⟩ := finalizedState_spec dst s
  rw [hstate]

/-- `exec` goes through R180's table: each command makes its checks in their order before its effect (R167, R180). -/
theorem exec_answersChecks (i : Instr) (s : State) : AnswersChecks (commandChecks i s) s (exec i s) := by
  cases i with
  | setupKey mode src kbits =>
    have haccepted := answersChecks_nil 0 (keyedState_responses mode src kbits s)
    exact answersChecks_cons (answersChecks_cons (answersChecks_cons haccepted))
  | setupNonce src nbits =>
    have haccepted := answersChecks_nil 0 (armedState_responses src s)
    exact answersChecks_cons (answersChecks_cons (answersChecks_cons haccepted))
  | processAad src len =>
    have haccepted := answersChecks_nil 0 (absorbedState_responses src len s)
    exact answersChecks_cons (answersChecks_cons_not (answersChecks_cons_not (answersChecks_cons haccepted)))
  | process src dst len =>
    have haccepted := answersChecks_nil 0 (processedState_responses src dst len s)
    exact answersChecks_cons (answersChecks_cons_not (answersChecks_cons haccepted))
  | finalize dst =>
    have haccepted := answersChecks_nil 0 (finalizedState_responses dst s)
    exact answersChecks_cons (answersChecks_cons haccepted)
  | reset => exact answersChecks_cons (answersChecks_nil 0 (nonceInit_responses s))
  | erase => exact answersChecks_nil 0 (erasedState_responses s)
  | getKeySize => exact answersChecks_nil _ rfl
  | getNonceSize => exact answersChecks_nil _ rfl
  | getWordSize => exact answersChecks_nil _ rfl
  | getMacSize => exact answersChecks_nil _ rfl

theorem exec_of_failure {i : Instr} {s : State} {c : Code} (hfail : firstFailure (commandChecks i s) = some c) :
    exec i s = failCommand c s := by
  have hanswer := exec_answersChecks i s
  rwa [AnswersChecks, hfail] at hanswer

theorem exec_of_noFailure {i : Instr} {s : State} (hpass : firstFailure (commandChecks i s) = none) :
    AcceptedFrom s (exec i s) := by
  have hanswer := exec_answersChecks i s
  rwa [AnswersChecks, hpass] at hanswer

/-- The response of every command: the code of its first failing check, `OK` where none fails (R67, R167). -/
theorem responses_of_exec {i : Instr} {s t : State} (hexec : exec i s = .next t) :
    ∃ v, t.responses = s.responses ++ [responseWord ((firstFailure (commandChecks i s)).getD .ok) v] := by
  cases hchecks : firstFailure (commandChecks i s) with
  | none =>
    obtain ⟨u, v, haccepted, hresponses⟩ := exec_of_noFailure hchecks
    rw [hexec, respondValue_eq] at haccepted
    obtain rfl := Host.Outcome.next.inj haccepted
    exact ⟨v, by simp [hresponses]⟩
  | some c =>
    have hrefused := exec_of_failure hchecks
    rw [hexec, failCommand_eq] at hrefused
    obtain rfl := Host.Outcome.next.inj hrefused
    exact ⟨0, by simp⟩

section
variable {c : Code} {rsp : Word} (hcode : c ≠ .ok) (hword : responseWord c 0 = rsp)
include hcode hword

/-- A command that responds with a refusal's word has failed that refusal's check. -/
theorem failure_of_responses {i : Instr} {s t : State} (hexec : exec i s = .next t)
    (hresponses : t.responses = s.responses ++ [rsp]) : firstFailure (commandChecks i s) = some c := by
  obtain ⟨v, hanswer⟩ := responses_of_exec hexec
  have hsame : responseWord ((firstFailure (commandChecks i s)).getD .ok) v = responseWord c 0 := by
    rw [hanswer, ← hword] at hresponses
    simpa using hresponses
  have hcodes := code_of_responseWord_eq hsame
  cases hchecks : firstFailure (commandChecks i s) with
  | none =>
    rw [hchecks] at hcodes
    exact absurd hcodes.symm hcode
  | some k =>
    rw [hchecks] at hcodes
    exact congrArg some hcodes

/-- A command answers a refusal and changes nothing exactly where the check of that code is its first to fail. -/
theorem exec_refuses_iff (i : Instr) (s : State) :
    exec i s = .next { s with responses := s.responses ++ [rsp] } ↔ firstFailure (commandChecks i s) = some c :=
  ⟨fun hexec => failure_of_responses hcode hword hexec rfl,
    fun hfail => (exec_of_failure hfail).trans (failCommand_eq_append hword s)⟩

end

/-! The checks themselves (R27, R161 to R163). -/

theorem legalSetupKey_eq_false_iff (p : Phase) : legalSetupKey p = false ↔ p = .erased := by
  cases p <;> simp [legalSetupKey]

theorem legalSetupNonce_eq_false_iff (p : Phase) : legalSetupNonce p = false ↔ p = .fresh ∨ p = .erased := by
  cases p <;> simp [legalSetupNonce]

theorem legalReset_eq_false_iff (p : Phase) :
    legalReset p = false ↔ p = .fresh ∨ p = .keyReady ∨ p = .erased := by
  cases p <;> simp [legalReset]

theorem legalData_eq_false_iff (p : Phase) :
    legalData p = false ↔ p = .fresh ∨ p = .keyReady ∨ p = .finalized ∨ p = .erased := by
  cases p <;> simp [legalData]

theorem keySizeValid_eq_false_iff (kbits : Word) :
    keySizeValid kbits = false ↔ kbits.toNat > 256 ∨ kbits.toNat % 8 ≠ 0 := by
  rw [← Bool.not_eq_true, keySizeValid_iff]
  omega

theorem nonceSizeValid_eq_false_iff (nbits : Word) : nonceSizeValid nbits = false ↔ nbits ≠ 128 := by
  rw [← Bool.not_eq_true, nonceSizeValid_iff, ne_eq, ← BitVec.toNat_inj]
  rfl

theorem msgBegun_iff (s : State) : msgBegun s = true ↔ s.aadx = 0 := beq_iff_eq

theorem aadShort_iff (s : State) : aadShort s = true ↔ s.aadLen.toNat % 4 ≠ 0 := bne_iff_ne

theorem msgShort_iff (s : State) : msgShort s = true ↔ s.msgLen.toNat % 4 ≠ 0 := bne_iff_ne

/-! Where each code is the first failure. -/

theorem setupKey_badSequence_iff (mode : Mode) (src kbits : Word) (s : State) :
    firstFailure (commandChecks (.setupKey mode src kbits) s) = some .badSequence ↔ s.phase = .erased := by
  simp [commandChecks, legalSetupKey_eq_false_iff]

theorem setupNonce_badSequence_iff (src nbits : Word) (s : State) :
    firstFailure (commandChecks (.setupNonce src nbits) s) = some .badSequence ↔
      s.phase = .fresh ∨ s.phase = .erased := by
  simp [commandChecks, legalSetupNonce_eq_false_iff]

theorem reset_badSequence_iff (s : State) :
    firstFailure (commandChecks .reset s) = some .badSequence ↔
      s.phase = .fresh ∨ s.phase = .keyReady ∨ s.phase = .erased := by
  simp [commandChecks, legalReset_eq_false_iff]

/-- The commands of R27's shared row. -/
theorem data_badSequence_iff {i : Instr} (hdata : (∃ src len, i = .processAad src len) ∨
    (∃ src dst len, i = .process src dst len) ∨ (∃ dst, i = .finalize dst)) (s : State) :
    firstFailure (commandChecks i s) = some .badSequence ↔ legalData s.phase = false := by
  rcases hdata with ⟨src, len, rfl⟩ | ⟨src, dst, len, rfl⟩ | ⟨dst, rfl⟩ <;> simp [commandChecks]

theorem setupKey_invalidKeySize_iff (mode : Mode) (src kbits : Word) (s : State) :
    firstFailure (commandChecks (.setupKey mode src kbits) s) = some .invalidKeySize ↔
      legalSetupKey s.phase = true ∧ keySizeValid kbits = false := by
  simp [commandChecks]

theorem setupNonce_invalidNonceSize_iff (src nbits : Word) (s : State) :
    firstFailure (commandChecks (.setupNonce src nbits) s) = some .invalidNonceSize ↔
      legalSetupNonce s.phase = true ∧ nonceSizeValid nbits = false := by
  simp [commandChecks]

theorem processAad_misalignedData_iff (src len : Word) (s : State) :
    firstFailure (commandChecks (.processAad src len) s) = some .misalignedData ↔
      legalData s.phase = true ∧ (msgBegun s = true ∨ aadShort s = true) := by
  cases hbegun : msgBegun s <;> simp [commandChecks, hbegun]

theorem process_misalignedData_iff (src dst len : Word) (s : State) :
    firstFailure (commandChecks (.process src dst len) s) = some .misalignedData ↔
      legalData s.phase = true ∧ msgShort s = true := by
  simp [commandChecks]

/-! Which commands a code belongs to. -/

theorem setupKey_of_invalidKeySize {i : Instr} {s : State}
    (hfail : firstFailure (commandChecks i s) = some .invalidKeySize) :
    ∃ mode src kbits, i = .setupKey mode src kbits := by
  cases i with
  | setupKey mode src kbits => exact ⟨mode, src, kbits, rfl⟩
  | _ => simp [commandChecks] at hfail

theorem setupNonce_of_invalidNonceSize {i : Instr} {s : State}
    (hfail : firstFailure (commandChecks i s) = some .invalidNonceSize) :
    ∃ src nbits, i = .setupNonce src nbits := by
  cases i with
  | setupNonce src nbits => exact ⟨src, nbits, rfl⟩
  | _ => simp [commandChecks] at hfail

theorem data_of_misalignedData {i : Instr} {s : State}
    (hfail : firstFailure (commandChecks i s) = some .misalignedData) :
    ((∃ src len, i = .processAad src len) ∨ ∃ src dst len, i = .process src dst len) ∧
      (s.phase = .armed ∨ s.phase = .streaming) := by
  rw [← legalData_iff]
  cases i with
  | processAad src len => exact ⟨.inl ⟨src, len, rfl⟩, ((processAad_misalignedData_iff src len s).mp hfail).1⟩
  | process src dst len => exact ⟨.inr ⟨src, dst, len, rfl⟩, ((process_misalignedData_iff src dst len s).mp hfail).1⟩
  | _ => simp [commandChecks] at hfail

/-- `ERASE` and the queries check nothing (R171). -/
theorem commandChecks_of_neverFails {i : Instr}
    (hi : i = .erase ∨ i = .getKeySize ∨ i = .getNonceSize ∨ i = .getWordSize ∨ i = .getMacSize) (s : State) :
    commandChecks i s = [] := by
  rcases hi with rfl | rfl | rfl | rfl | rfl <;> rfl

/-! The statements about refusals. -/

/-- Settles O53: the phase check is every command's first, and no later check has its code. -/
theorem sequenceRefusals : Obligations.SequenceRefusals := by
  have hword : responseWord .badSequence 0 = 0x00000004#32 := by decide
  have hiff := exec_refuses_iff (by decide) hword
  intro s
  refine ⟨fun mode src kbits => ?setupKey, fun src nbits => ?setupNonce, ?reset, fun i hdata => ?data,
    fun i t hi hexec hresponses => ?neverFails⟩
  case setupKey => rw [hiff, setupKey_badSequence_iff]
  case setupNonce => rw [hiff, setupNonce_badSequence_iff]
  case reset => rw [hiff, reset_badSequence_iff]
  case data => rw [hiff, data_badSequence_iff hdata, legalData_eq_false_iff]
  case neverFails =>
    have hfail := failure_of_responses (by decide) hword hexec hresponses
    simp [commandChecks_of_neverFails hi] at hfail

/-- Settles O54: behind the phase check only the size check has this code, and only `SETUP_KEY` makes it. -/
theorem invalidKeySizeRefusal : Obligations.InvalidKeySizeRefusal := by
  have hword : responseWord .invalidKeySize 0 = 0x00000001#32 := by decide
  refine ⟨fun mode src kbits s hphase => ?setupKey, fun i s t hother hexec hresponses => ?others⟩
  case setupKey =>
    have hlegal : legalSetupKey s.phase = true := by
      rwa [← Bool.not_eq_false, legalSetupKey_eq_false_iff]
    rw [exec_refuses_iff (by decide) hword, setupKey_invalidKeySize_iff, keySizeValid_eq_false_iff,
      and_iff_right hlegal]
  case others =>
    obtain ⟨mode, src, kbits, rfl⟩ :=
      setupKey_of_invalidKeySize (failure_of_responses (by decide) hword hexec hresponses)
    exact hother mode src kbits rfl

/-- Settles O55: as O54, for the size check that only `SETUP_NONCE` makes. -/
theorem invalidNonceSizeRefusal : Obligations.InvalidNonceSizeRefusal := by
  have hword : responseWord .invalidNonceSize 0 = 0x00000002#32 := by decide
  refine ⟨fun src nbits s hfresh herased => ?setupNonce, fun i s t hother hexec hresponses => ?others⟩
  case setupNonce =>
    have hlegal : legalSetupNonce s.phase = true := by
      rw [← Bool.not_eq_false, legalSetupNonce_eq_false_iff]
      exact not_or_intro hfresh herased
    rw [exec_refuses_iff (by decide) hword, setupNonce_invalidNonceSize_iff, nonceSizeValid_eq_false_iff,
      and_iff_right hlegal]
  case others =>
    obtain ⟨src, nbits, rfl⟩ :=
      setupNonce_of_invalidNonceSize (failure_of_responses (by decide) hword hexec hresponses)
    exact hother src nbits rfl

/-- Settles O56: the alignment checks of the two data commands read the counters and `AADX` only, they stand behind the
phase check, and no other command makes them. -/
theorem misalignedDataRefusals : Obligations.MisalignedDataRefusals := by
  have hword : responseWord .misalignedData 0 = 0x00000003#32 := by decide
  have hiff := exec_refuses_iff (by decide) hword
  refine ⟨fun src dst len s hphase => ?data, fun i s t hother hexec hresponses => ?others⟩
  case data =>
    have hlegal := (legalData_iff s.phase).mpr hphase
    rw [hiff, hiff, processAad_misalignedData_iff, process_misalignedData_iff, and_iff_right hlegal,
      and_iff_right hlegal, msgBegun_iff, aadShort_iff, msgShort_iff]
    exact ⟨Iff.rfl, Iff.rfl⟩
  case others =>
    obtain ⟨hcommand, hphase⟩ := data_of_misalignedData (failure_of_responses (by decide) hword hexec hresponses)
    obtain ⟨hnotAad, hnotProcess⟩ := hother.resolve_right (not_not_intro hphase)
    rcases hcommand with ⟨src, len, rfl⟩ | ⟨src, dst, len, rfl⟩
    · exact hnotAad src len rfl
    · exact hnotProcess src dst len rfl

/-- Settles O58: with no check to fail the command is accepted. -/
theorem commandsThatNeverFail : Obligations.CommandsThatNeverFail := by
  intro i s hi
  have hpass : firstFailure (commandChecks i s) = none := by rw [commandChecks_of_neverFails hi, firstFailure_nil]
  obtain ⟨u, v, haccepted, hresponses⟩ := exec_of_noFailure hpass
  refine ⟨_, responseWord .ok v, haccepted, ?appended, responseWord_code .ok v⟩
  case appended => rw [deliver_responses, hresponses]

end Sys2Proof
end

section
/-!
The outcome of every command, of every action of the host and of the step (spec/60_exceptions.md R160 to R180,
spec/70_reset_and_hazards.md R190, R202): a command is refused by its first failing check or reaches one state.
-/

namespace Sys2Proof

open Machine

/-! The effect of an accepted command. -/

/-- The state an accepted command reaches before its response is delivered (R180). -/
def commandEffect : Instr → State → State
  | .setupKey mode src kbits, s => keyedState mode src kbits s
  | .setupNonce src _, s => armedState src s
  | .processAad src len, s => absorbedState src len s
  | .process src dst len, s => processedState src dst len s
  | .finalize dst, s => finalizedState dst s
  | .reset, s => { nonceInit s with phase := .armed }
  | .erase, s => erasedState s
  | .getKeySize, s => s
  | .getNonceSize, s => s
  | .getWordSize, s => s
  | .getMacSize, s => s

/-- The `VAL` an accepted command answers: a query's size, 0 for every other command (R68, R142 to R145). -/
def commandValue : Instr → State → Byte
  | .getKeySize, _ => BitVec.ofNat 8 (keyMaxBits / 8)
  | .getNonceSize, _ => BitVec.ofNat 8 (nonceBits / 8)
  | .getWordSize, _ => BitVec.ofNat 8 wordBytes
  | .getMacSize, s => BitVec.ofNat 8 (macBytes s.macSize)
  | _, _ => 0

/-- No check of a command answers `OK` (R167). -/
theorem firstFailure_ne_ok (i : Instr) (s : State) : firstFailure (commandChecks i s) ≠ some .ok := by
  cases i <;> simp [commandChecks]

/-- An outcome that is either one acceptance or a refusal is that acceptance where every check passes. -/
theorem exec_eq_of_pass {i : Instr} {s u : State} {v : Byte} (hpass : firstFailure (commandChecks i s) = none)
    (hcases : exec i s = respondValue v u ∨ ∃ c, c ≠ .ok ∧ exec i s = failCommand c s) :
    exec i s = respondValue v u := by
  refine hcases.resolve_right ?_
  rintro ⟨c, hcode, hrefused⟩
  have hfail := failure_of_responses hcode rfl (hrefused.trans (failCommand_eq c s)) (deliver_responses _ s)
  rw [hpass] at hfail
  exact nomatch hfail

/-- A command all of whose checks pass is accepted: its effect, then its response (R160, R180). -/
theorem exec_of_pass {i : Instr} {s : State} (hpass : firstFailure (commandChecks i s) = none) :
    exec i s = respondValue (commandValue i s) (commandEffect i s) := by
  cases i with
  | setupKey mode src kbits =>
    exact exec_eq_of_pass hpass ((execSetupKey_cases mode src kbits s).imp_left fun ⟨_, _, _, h⟩ => h)
  | setupNonce src nbits =>
    exact exec_eq_of_pass hpass ((execSetupNonce_cases src nbits s).imp_left fun ⟨_, _, _, h⟩ => h)
  | processAad src len =>
    exact exec_eq_of_pass hpass ((execProcessAad_cases src len s).imp_left fun ⟨_, _, _, _, h⟩ => h)
  | process src dst len =>
    exact exec_eq_of_pass hpass ((execProcess_cases src dst len s).imp_left fun ⟨_, _, _, _, h⟩ => h)
  | finalize dst => exact exec_eq_of_pass hpass ((execFinalize_cases dst s).imp_left fun ⟨_, _, h⟩ => h)
  | reset => exact exec_eq_of_pass hpass ((execReset_cases s).imp_left fun ⟨_, h⟩ => h)
  | erase => rfl
  | getKeySize => exact exec_getKeySize s
  | getNonceSize => exact exec_getNonceSize s
  | getWordSize => exact exec_getWordSize s
  | getMacSize => exact exec_getMacSize s

/-- The state every command ends in: refused, only its response is new; accepted, its effect and its response. -/
def commandResult (i : Instr) (s : State) : State :=
  match firstFailure (commandChecks i s) with
  | some c => deliver (responseWord c 0) s
  | none => deliver (responseWord .ok (commandValue i s)) (commandEffect i s)

theorem commandResult_of_failure {i : Instr} {s : State} {c : Code}
    (hfail : firstFailure (commandChecks i s) = some c) : commandResult i s = deliver (responseWord c 0) s := by
  rw [commandResult, hfail]

theorem commandResult_of_pass {i : Instr} {s : State} (hpass : firstFailure (commandChecks i s) = none) :
    commandResult i s = deliver (responseWord .ok (commandValue i s)) (commandEffect i s) := by
  rw [commandResult, hpass]

/-- Every command is total (R180). -/
theorem exec_eq_next (i : Instr) (s : State) : exec i s = .next (commandResult i s) := by
  cases hchecks : firstFailure (commandChecks i s) with
  | none => rw [exec_of_pass hchecks, respondValue_eq, commandResult_of_pass hchecks]
  | some c => rw [exec_of_failure hchecks, failCommand_eq, commandResult_of_failure hchecks]

theorem exec_eq_next_iff {i : Instr} {s t : State} : exec i s = .next t ↔ t = commandResult i s := by
  rw [exec_eq_next, Host.Outcome.next.injEq, eq_comm]

/-- All a command can do: it is refused and only adds its response, or it is accepted. -/
theorem commandResult_cases (i : Instr) (s : State) :
    (∃ c, c ≠ .ok ∧ firstFailure (commandChecks i s) = some c ∧ commandResult i s = deliver (responseWord c 0) s) ∨
    (firstFailure (commandChecks i s) = none ∧
      commandResult i s = deliver (responseWord .ok (commandValue i s)) (commandEffect i s)) := by
  cases hchecks : firstFailure (commandChecks i s) with
  | none => exact .inr ⟨rfl, commandResult_of_pass hchecks⟩
  | some c =>
    have hcode : c ≠ .ok := fun hok => firstFailure_ne_ok i s (hok ▸ hchecks)
    exact .inl ⟨c, hcode, rfl, commandResult_of_failure hchecks⟩

/-- The word of a plain `OK` (R68, R69). -/
theorem responseWord_ok : responseWord .ok 0 = 0x00000000#32 := by decide

/-- An accepted command that is no query: its effect, and `OK` (R68). -/
theorem exec_accepted {i : Instr} {s : State} (hpass : firstFailure (commandChecks i s) = none)
    (hvalue : commandValue i s = 0) :
    exec i s = .next { commandEffect i s with responses := (commandEffect i s).responses ++ [0x00000000#32] } := by
  rw [exec_of_pass hpass, hvalue, respondValue_eq_append responseWord_ok]

/-- A command that answers a word with `CODE = 0` has passed every check. -/
theorem pass_of_responses {i : Instr} {s t : State} (hexec : exec i s = .next t)
    (hresponses : t.responses = s.responses ++ [0x00000000#32]) : firstFailure (commandChecks i s) = none := by
  obtain rfl := exec_eq_next_iff.mp hexec
  rcases commandResult_cases i s with ⟨c, hcode, _, hrefused⟩ | ⟨hpass, _⟩
  case inr => exact hpass
  rw [hrefused, deliver_responses, ← responseWord_ok] at hresponses
  exact absurd (code_of_responseWord_eq (by simpa using hresponses)) hcode

/-! Where every check passes. -/

@[simp] theorem firstFailure_cons_eq_none_iff {k : Code} {passes : Bool} {rest : List (Code × Bool)} :
    firstFailure ((k, passes) :: rest) = none ↔ passes = true ∧ firstFailure rest = none := by
  cases passes <;> simp [firstFailure_cons]

theorem setupKey_pass_iff (mode : Mode) (src kbits : Word) (s : State) :
    firstFailure (commandChecks (.setupKey mode src kbits) s) = none ↔
      s.phase ≠ .erased ∧ (kbits.toNat ≤ 256 ∧ kbits.toNat % 8 = 0) ∧
        rangeAdmitted s.backed src (kbits.toNat / 8) = true := by
  simp [commandChecks, keySizeValid_iff, ← Bool.not_eq_false (legalSetupKey s.phase), legalSetupKey_eq_false_iff]

theorem setupNonce_pass_iff (src nbits : Word) (s : State) :
    firstFailure (commandChecks (.setupNonce src nbits) s) = none ↔
      (s.phase ≠ .fresh ∧ s.phase ≠ .erased) ∧ nbits.toNat = 128 ∧ rangeAdmitted s.backed src 16 = true := by
  simp [commandChecks, nonceSizeValid_iff, ← Bool.not_eq_false (legalSetupNonce s.phase), legalSetupNonce_eq_false_iff]

theorem processAad_pass_iff (src len : Word) (s : State) :
    firstFailure (commandChecks (.processAad src len) s) = none ↔
      (s.phase = .armed ∨ s.phase = .streaming) ∧ s.aadx ≠ 0 ∧ s.aadLen.toNat % 4 = 0 ∧
        rangeAdmitted s.backed src len.toNat = true := by
  simp [commandChecks, legalData_iff, ← Bool.not_eq_true, msgBegun_iff, aadShort_iff]

theorem process_pass_iff (src dst len : Word) (s : State) :
    firstFailure (commandChecks (.process src dst len) s) = none ↔
      (s.phase = .armed ∨ s.phase = .streaming) ∧ s.msgLen.toNat % 4 = 0 ∧
        rangeAdmitted s.backed src len.toNat = true ∧ rangeAdmitted s.backed dst len.toNat = true := by
  simp [commandChecks, legalData_iff, ← Bool.not_eq_true, msgShort_iff]

theorem finalize_pass_iff (dst : Word) (s : State) :
    firstFailure (commandChecks (.finalize dst) s) = none ↔
      (s.phase = .armed ∨ s.phase = .streaming) ∧ rangeAdmitted s.backed dst (macBytes s.macSize) = true := by
  simp [commandChecks, legalData_iff]

theorem reset_pass_iff (s : State) : firstFailure (commandChecks .reset s) = none ↔ Sessioned s.phase := by
  cases hphase : s.phase <;> simp [commandChecks, legalReset, Sessioned, hphase]

/-! What every accepted command leaves alone, and the phase it enters. -/

/-- The phase an accepted command enters (R27). -/
def phaseAfter : Instr → Phase → Phase
  | .setupKey _ _ _, _ => .keyReady
  | .setupNonce _ _, _ => .armed
  | .processAad _ _, _ => .streaming
  | .process _ _ _, _ => .streaming
  | .finalize _, _ => .finalized
  | .reset, _ => .armed
  | .erase, _ => .erased
  | .getKeySize, p => p
  | .getNonceSize, p => p
  | .getWordSize, p => p
  | .getMacSize, p => p

/-- What every accepted command has in common: the strap, `ADMIT` and the host's two lists stay, the phase is the
command's own (R19, R27, R47). -/
theorem commandEffect_frame (i : Instr) (s : State) :
    (commandEffect i s).macSize = s.macSize ∧ (commandEffect i s).backed = s.backed ∧
    (commandEffect i s).inputs = s.inputs ∧ (commandEffect i s).responses = s.responses ∧
    (commandEffect i s).phase = phaseAfter i s.phase := by
  cases i with
  | processAad src len =>
    obtain ⟨z, oldz, hstate⟩ := absorbedState_spec src len s
    rw [commandEffect, hstate]
    exact ⟨rfl, rfl, rfl, rfl, rfl⟩
  | process src dst len =>
    obtain ⟨z, oldz, m, hstate⟩ := processedState_spec src dst len s
    rw [commandEffect, hstate]
    exact ⟨rfl, rfl, rfl, rfl, rfl⟩
  | finalize dst =>
    obtain ⟨z, oldz, buf, m, hstate⟩ := finalizedState_spec dst s
    rw [commandEffect, hstate]
    exact ⟨rfl, rfl, rfl, rfl, rfl⟩
  | setupKey mode src kbits => simp [commandEffect, phaseAfter]
  | _ => exact ⟨rfl, rfl, rfl, rfl, rfl⟩

@[simp] theorem commandEffect_macSize (i : Instr) (s : State) : (commandEffect i s).macSize = s.macSize :=
  have ⟨hmacSize, _⟩ := commandEffect_frame i s
  hmacSize

@[simp] theorem commandEffect_backed (i : Instr) (s : State) : (commandEffect i s).backed = s.backed :=
  have ⟨_, hbacked, _⟩ := commandEffect_frame i s
  hbacked

@[simp] theorem commandEffect_inputs (i : Instr) (s : State) : (commandEffect i s).inputs = s.inputs :=
  have ⟨_, _, hinputs, _⟩ := commandEffect_frame i s
  hinputs

@[simp] theorem commandEffect_responses (i : Instr) (s : State) : (commandEffect i s).responses = s.responses :=
  have ⟨_, _, _, hresponses, _⟩ := commandEffect_frame i s
  hresponses

@[simp] theorem commandEffect_phase (i : Instr) (s : State) : (commandEffect i s).phase = phaseAfter i s.phase :=
  have ⟨_, _, _, _, hphase⟩ := commandEffect_frame i s
  hphase

/-- The word a command answers. -/
def commandResponse (i : Instr) (s : State) : Word :=
  match firstFailure (commandChecks i s) with
  | some c => responseWord c 0
  | none => responseWord .ok (commandValue i s)

theorem commandResult_frame (i : Instr) (s : State) :
    (commandResult i s).macSize = s.macSize ∧ (commandResult i s).backed = s.backed ∧
    (commandResult i s).inputs = s.inputs ∧ (commandResult i s).responses = s.responses ++ [commandResponse i s] := by
  cases hchecks : firstFailure (commandChecks i s) <;> simp [commandResult, commandResponse, hchecks]

theorem commandResult_phase (i : Instr) (s : State) :
    (commandResult i s).phase =
      if firstFailure (commandChecks i s) = none then phaseAfter i s.phase else s.phase := by
  cases hchecks : firstFailure (commandChecks i s) <;> simp [commandResult, hchecks]

/-- Settles O10: accepted or refused, a command only adds its response to what the frame names. -/
theorem commandsKeepStrapAndPlatform : Obligations.CommandsKeepStrapAndPlatform := by
  intro i s t hexec
  obtain rfl := exec_eq_next_iff.mp hexec
  obtain ⟨hstrap, hbacked, hinputs, hresponses⟩ := commandResult_frame i s
  exact ⟨hstrap, hbacked, hinputs, _, hresponses⟩

/-- A refusal's word has `VAL` and the reserved bits 0 (R68). -/
theorem responseWord_rest (c : Code) : (responseWord c 0).extractLsb' 4 28 = 0 := by cases c <;> decide

/-- Settles O9: an accepted command answers `CODE = 0`, and a refused one only adds its response. -/
theorem refusedCommandChangesNothing : Obligations.RefusedCommandChangesNothing := by
  intro i s t rsp hexec hresponses hcode
  obtain rfl := exec_eq_next_iff.mp hexec
  rcases commandResult_cases i s with ⟨c, _, _, hresult⟩ | ⟨_, hresult⟩ <;> rw [hresult] at hresponses ⊢
  case inl =>
    obtain rfl : responseWord c 0 = rsp := by simpa using hresponses
    exact ⟨rfl, responseWord_rest c⟩
  case inr =>
    obtain rfl : responseWord .ok (commandValue i s) = rsp := by simpa using hresponses
    exact absurd (responseWord_code .ok _) hcode

/-! The response reads no memory (R203). -/

theorem commandChecks_mem (i : Instr) (s : State) (m : Memory) :
    commandChecks i { s with mem := m } = commandChecks i s := by
  cases i <;> rfl

theorem commandValue_mem (i : Instr) (s : State) (m : Memory) :
    commandValue i { s with mem := m } = commandValue i s := by
  cases i <;> rfl

theorem commandResponse_mem (i : Instr) (s : State) (m : Memory) :
    commandResponse i { s with mem := m } = commandResponse i s := by
  rw [commandResponse, commandChecks_mem, commandValue_mem, ← commandResponse]

/-- Settles O59: neither the checks nor `VAL` read memory, and the phase follows from the checks and the old phase. -/
theorem responseIgnoresMemory : Obligations.ResponseIgnoresMemory := by
  intro i s m
  refine ⟨_, _, exec_eq_next i s, exec_eq_next i { s with mem := m }, ?responses, ?phase⟩
  case responses =>
    obtain ⟨_, _, _, hresponses⟩ := commandResult_frame i s
    obtain ⟨_, _, _, hresponses'⟩ := commandResult_frame i { s with mem := m }
    rw [hresponses, hresponses', commandResponse_mem i s m]
  case phase => rw [commandResult_phase, commandResult_phase, commandChecks_mem i s m]

/-! Refusals for a range that is not admitted (R166). -/

theorem macBytes_eq (m : MacSize) : macBits m / 8 = macBytes m := rfl

/-- Settles O57: each range check is its command's last, and the hypotheses pass the checks before it. -/
theorem badAccessRefusals : Obligations.BadAccessRefusals := by
  have hword : responseWord .badAccess 0 = 0x00000006#32 := by decide
  have hiff := exec_refuses_iff (by decide) hword
  refine ⟨fun mode src kbits s hphase hmax hbytes hrange => ?setupKey, fun src s hfresh herased hrange => ?setupNonce,
    fun src len s hphase hpending haligned hrange => ?processAad,
    fun src dst len s hphase haligned hrange => ?process, fun dst s hphase hrange => ?finalize⟩
  case setupKey =>
    have hlegal : legalSetupKey s.phase = true := by rwa [← Bool.not_eq_false, legalSetupKey_eq_false_iff]
    have hsize := (keySizeValid_iff kbits).mpr ⟨hmax, hbytes⟩
    simp [hiff, commandChecks, hlegal, hsize, hrange]
  case setupNonce =>
    have hlegal : legalSetupNonce s.phase = true := by
      rw [← Bool.not_eq_false, legalSetupNonce_eq_false_iff]
      exact not_or_intro hfresh herased
    have hsize : nonceSizeValid 128#32 = true := by decide
    simp [hiff, commandChecks, hlegal, hsize, hrange]
  case processAad =>
    have hlegal := (legalData_iff s.phase).mpr hphase
    have hbegun : msgBegun s = false := by rwa [← Bool.not_eq_true, msgBegun_iff]
    have hshort : aadShort s = false := by rwa [← Bool.not_eq_true, aadShort_iff, not_not]
    simp [hiff, commandChecks, hlegal, hbegun, hshort, hrange]
  case process =>
    have hlegal := (legalData_iff s.phase).mpr hphase
    have hshort : msgShort s = false := by rwa [← Bool.not_eq_true, msgShort_iff, not_not]
    simpa [hiff, commandChecks, hlegal, hshort, imp_iff_not_or] using hrange
  case finalize =>
    have hlegal := (legalData_iff s.phase).mpr hphase
    simpa [hiff, commandChecks, hlegal] using macBytes_eq s.macSize ▸ hrange

/-! The actions of the host and the step. -/

theorem step_nil {s : State} (hinputs : s.inputs = []) : step s = .next s := stepPort_nil hinputs

theorem step_cons {s : State} {e : HostEvent} {rest : List HostEvent} (hinputs : s.inputs = e :: rest) :
    step s = handleEvent e { s with inputs := rest } := stepPort_cons hinputs

theorem handleEvent_issue (d : Descriptor) (s : State) : handleEvent (.issue d) s = execDescriptor d s := rfl

theorem handleEvent_write (a : Word) (b : Byte) (s : State) :
    handleEvent (.write a b) s = .next { s with mem := writeByte s.mem a.toNat b } := rfl

theorem handleEvent_resetEvent (strap : MacSize) (s : State) :
    handleEvent (.resetEvent strap) s = .next (applyReset strap s) := rfl

theorem handleEvent_resetDuring (d : Descriptor) (written : Nat) (strap : MacSize) (s : State) :
    handleEvent (.resetDuring d written strap) s =
      .next (applyReset strap { s with mem := abandonedMem d written s }) := rfl

/-- Every descriptor is executed to one next state, with one response more (R67, R180). -/
theorem execDescriptor_total (d : Descriptor) (s : State) :
    ∃ t rsp, execDescriptor d s = .next t ∧ t.inputs = s.inputs ∧ t.responses = s.responses ++ [rsp] := by
  cases hdecode : decodeDescriptor d with
  | error e =>
    exact ⟨_, _, (execDescriptor_of_error hdecode s).trans (failCommand_eq _ s), rfl, rfl⟩
  | ok i =>
    obtain ⟨_, _, hinputs, hresponses⟩ := commandResult_frame i s
    exact ⟨_, _, (execDescriptor_of_ok hdecode s).trans (exec_eq_next i s), hinputs, hresponses⟩

/-- What the host does other than to issue a descriptor has no response (R67, R190). -/
theorem handleEvent_of_not_issue {e : HostEvent} (hother : ∀ d, e ≠ .issue d) (s : State) :
    ∃ t, handleEvent e s = .next t ∧ t.inputs = s.inputs ∧ t.responses = s.responses := by
  cases e with
  | issue d => exact absurd rfl (hother d)
  | write a b => exact ⟨_, handleEvent_write a b s, rfl, rfl⟩
  | resetEvent strap => exact ⟨_, handleEvent_resetEvent strap s, rfl, rfl⟩
  | resetDuring d written strap => exact ⟨_, handleEvent_resetDuring d written strap s, rfl, rfl⟩

/-- Settles O8: a descriptor is issued or it is not. -/
theorem everyDescriptorGetsOneResponse : Obligations.EveryDescriptorGetsOneResponse := by
  intro s e rest hinputs
  rw [step_cons hinputs]
  by_cases hissue : ∃ d, e = .issue d
  case pos =>
    obtain ⟨d, rfl⟩ := hissue
    obtain ⟨t, rsp, hexec, hrest, hresponses⟩ := execDescriptor_total d { s with inputs := rest }
    exact ⟨t, hexec, hrest, fun _ => ⟨rsp, hresponses⟩, fun hother => absurd rfl (hother d)⟩
  case neg =>
    obtain ⟨t, hstep, hrest, hresponses⟩ := handleEvent_of_not_issue (not_exists.mp hissue) { s with inputs := rest }
    exact ⟨t, hstep, hrest, fun hissued => absurd hissued hissue, fun _ => hresponses⟩

theorem step_total (s : State) : ∃ t, step s = .next t := by
  cases hinputs : s.inputs with
  | nil => exact ⟨s, step_nil hinputs⟩
  | cons e rest =>
    obtain ⟨t, hstep, _⟩ := everyDescriptorGetsOneResponse s e rest hinputs
    exact ⟨t, hstep⟩

theorem run_zero (s : State) : Host.Core.run core 0 s = .next s := rfl

theorem run_succ {s t : State} (hstep : step s = .next t) (k : Nat) :
    Host.Core.run core (k + 1) s = Host.Core.run core k t := by
  have hcore : core.step s = .next t := hstep
  simp only [Host.Core.run, hcore]

/-- Settles O11: by induction on the number of steps, since no step stops. -/
theorem machineNeverStops : Obligations.MachineNeverStops := by
  intro s k
  induction k generalizing s with
  | zero => exact ⟨s, run_zero s⟩
  | succ k ih =>
    obtain ⟨t, hstep⟩ := step_total s
    rw [run_succ hstep]
    exact ih t

/-- From the state in which the descriptors wait, a step for each of them issues it and delivers its response. -/
theorem run_program (ds : List Descriptor) (s : State) (hinputs : s.inputs = ds.map .issue) :
    ∃ t rsps, Host.Core.run core ds.length s = .next t ∧ t.inputs = [] ∧ t.responses = s.responses ++ rsps ∧
      rsps.length = ds.length := by
  induction ds generalizing s with
  | nil => exact ⟨s, [], run_zero s, hinputs, (List.append_nil _).symm, rfl⟩
  | cons d ds ih =>
    obtain ⟨u, hstep, hrest, hissued, _⟩ := everyDescriptorGetsOneResponse s (.issue d) (ds.map .issue) hinputs
    obtain ⟨rsp, hresponse⟩ := hissued ⟨d, rfl⟩
    obtain ⟨t, rsps, hrun, hdone, hresponses, hlength⟩ := ih u hrest
    refine ⟨t, rsp :: rsps, (run_succ hstep _).trans hrun, hdone, ?_, congrArg Nat.succ hlength⟩
    rw [hresponses, hresponse, List.append_assoc, List.singleton_append]

/-- Settles O12: the program is what waits in the list. -/
theorem programDeliversItsResponses : Obligations.ProgramDeliversItsResponses := by
  intro ds s _
  exact run_program ds { s with inputs := ds.map .issue } rfl

/-- Settles O7: the idle step, and what one byte write does to a cell. -/
theorem betweenCommands : Obligations.BetweenCommands := by
  refine ⟨fun s hinputs => step_nil hinputs, fun s a b rest hinputs => ?write⟩
  case write =>
    exact ⟨_, (step_cons hinputs).trans (handleEvent_write a b _), fun c => readByte_writeByte s.mem a.toNat c b⟩

/-- Settles O17: the reset event is one action of the host. -/
theorem resetEventSetsRegisters : Obligations.ResetEventSetsRegisters := by
  intro s strap rest hinputs
  rw [step_cons hinputs, handleEvent_resetEvent]
  rfl

/-- Settles O15: `State.reset` field by field. -/
theorem resetLeavesEveryRegisterZero : Obligations.ResetLeavesEveryRegisterZero :=
  ⟨rfl, rfl, rfl, rfl, rfl, rfl, rfl, rfl, rfl, rfl, rfl, rfl, rfl, rfl⟩

/-- Settles O51: `ERASE` has no check to fail. -/
theorem eraseZeroesEveryRegister : Obligations.EraseZeroesEveryRegister := fun _ =>
  exec_accepted (i := .erase) rfl rfl

/-- The descriptor of a table word decodes to the word's command (R70). -/
theorem decodeDescriptor_tableDescriptor {nbits w : Nat} {i : Instr} (hword : decodeTableWord nbits w = some i) :
    decodeDescriptor (tableDescriptor nbits w) = .ok i := by
  unfold decodeTableWord decode at hword
  unfold tableDescriptor
  cases hbytes : descriptorOfBytes (tableBytes nbits w) with
  | none => simp [hbytes] at hword
  | some parsed =>
    cases hdecode : decodeDescriptor parsed.1 with
    | error e => simp [hbytes, hdecode] at hword
    | ok j => simpa [hbytes, hdecode] using hword

/-- The step takes the descriptor that stands first (R60). -/
theorem step_of_issue {s : State} {d : Descriptor} {i : Instr} {rest : List HostEvent}
    (hinputs : s.inputs = .issue d :: rest) (hdecode : decodeDescriptor d = .ok i) :
    step s = exec i { s with inputs := rest } := by
  rw [step_cons hinputs, handleEvent_issue, execDescriptor_of_ok hdecode]

/-- Settles O6: the step takes the first action; `withFetchWord` places the table word's descriptor there. -/
theorem stepRunsDecodedCommand : Obligations.StepRunsDecodedCommand := by
  refine ⟨fun s d i rest hinputs hdecode _ => step_of_issue hinputs hdecode, fun s nbits w i hword _ => ?tableWord⟩
  case tableWord =>
    exact step_of_issue (s := s.withFetchWord nbits w) (issueNext_inputs _ s) (decodeDescriptor_tableDescriptor hword)

end Sys2Proof
end

section
/-!
Encoding (spec/30_encoding.md R62, R70, R71): a command written as sixteen bytes and read back, and the operand words a
command ignores.
-/

namespace Sys2Proof

open Machine

/-! The serialised form (R70). -/

theorem wordOfBytes_extract (w : Word) :
    wordOfBytes (w.extractLsb' 0 8) (w.extractLsb' 8 8) (w.extractLsb' 16 8) (w.extractLsb' 24 8) = w := by
  rw [wordOfBytes, BitVec.extractLsb'_append_extractLsb'_eq_extractLsb' (start₁ := 16) (len₁ := 8) rfl,
    BitVec.extractLsb'_append_extractLsb'_eq_extractLsb' (start₁ := 8) (len₁ := 8) rfl,
    BitVec.extractLsb'_append_extractLsb'_eq_extractLsb' (start₁ := 0) (len₁ := 8) rfl, BitVec.extractLsb'_eq_self]

/-- The sixteen bytes of a descriptor, followed by any bytes, are read as the descriptor and the bytes after it. -/
theorem descriptorOfBytes_bytesOfDescriptor (d : Descriptor) (rest : List Byte) :
    descriptorOfBytes (bytesOfDescriptor d ++ rest) = some (d, rest) := by
  simp only [bytesOfDescriptor, bytesOfWord, List.cons_append, List.nil_append, descriptorOfBytes, wordOfBytes_extract]

theorem decode_of_descriptor {d : Descriptor} {i : Instr} (hdecode : decodeDescriptor d = .ok i) (rest : List Byte) :
    decode (bytesOfDescriptor d ++ rest) = .ok (i, rest) := by
  simp only [decode, descriptorOfBytes_bytesOfDescriptor, hdecode]

/-- The three fields of `SETUP_KEY`'s `W0` (R61, R64). -/
theorem w0OfSetupKey_fields (m : Mode) :
    (w0OfSetupKey m).extractLsb' 9 23 = 0#23 ∧ (w0OfSetupKey m).extractLsb' 0 8 = 0x01#8 ∧
      modeOfBit ((w0OfSetupKey m).extractLsb' 8 1) = m := by
  cases m <;> decide

/-- Decoding undoes encoding: `SETUP_KEY` by its fields, every other command by its opcode (R64, R66). -/
theorem decodeDescriptor_encode (i : Instr) : decodeDescriptor (encode i) = .ok i := by
  cases i with
  | setupKey mode src kbits =>
    obtain ⟨hres, hop, hmode⟩ := w0OfSetupKey_fields mode
    have hdecode := decodeDescriptor_of_setupKey (d := encode (.setupKey mode src kbits)) hres hop
    rwa [show modeOfBit (encode (.setupKey mode src kbits)).modeBit = mode from hmode] at hdecode
  | setupNonce src nbits => exact decodeDescriptor_of_w0OfOpcode (op := 0x02#8) rfl (by decide)
  | processAad src len => exact decodeDescriptor_of_w0OfOpcode (op := 0x03#8) rfl (by decide)
  | process src dst len => exact decodeDescriptor_of_w0OfOpcode (op := 0x04#8) rfl (by decide)
  | finalize dst => exact decodeDescriptor_of_w0OfOpcode (op := 0x05#8) rfl (by decide)
  | reset => exact decodeDescriptor_of_w0OfOpcode (op := 0x06#8) rfl (by decide)
  | erase => exact decodeDescriptor_of_w0OfOpcode (op := 0x07#8) rfl (by decide)
  | getKeySize => exact decodeDescriptor_of_w0OfOpcode (op := 0x08#8) rfl (by decide)
  | getNonceSize => exact decodeDescriptor_of_w0OfOpcode (op := 0x09#8) rfl (by decide)
  | getWordSize => exact decodeDescriptor_of_w0OfOpcode (op := 0x0A#8) rfl (by decide)
  | getMacSize => exact decodeDescriptor_of_w0OfOpcode (op := 0x0B#8) rfl (by decide)

/-- Settles O1: the bytes give the descriptor back, and the descriptor the command. -/
theorem decodeOfEncodedBytes : Obligations.DecodeOfEncodedBytes := fun i rest _ =>
  decode_of_descriptor (decodeDescriptor_encode i) rest

/-- Settles O3: the decoder run on each word. -/
theorem sampleWordsDecode : Obligations.SampleWordsDecode :=
  ⟨by decide, by decide, by decide, by decide, by decide, by decide, by decide, by decide, by decide⟩

/-! The operand words a command ignores (R62). -/

/-- The rows of R64 read `SRC` and `LEN` at the opcodes `0x02`, `0x03`, `0x04` and `DST` at `0x04`, `0x05` only. -/
theorem commandOfOpcode_congr {op : Byte} {src dst len src' dst' len' : Word}
    (hsource : op = 0x02#8 ∨ op = 0x03#8 ∨ op = 0x04#8 → src' = src ∧ len' = len)
    (hdestination : op = 0x04#8 ∨ op = 0x05#8 → dst' = dst) :
    commandOfOpcode op src' dst' len' = commandOfOpcode op src dst len := by
  by_cases h2 : op = 0x02#8
  · obtain ⟨rfl, rfl⟩ := hsource (.inl h2)
    rw [h2]; rfl
  by_cases h3 : op = 0x03#8
  · obtain ⟨rfl, rfl⟩ := hsource (.inr (.inl h3))
    rw [h3]; rfl
  by_cases h4 : op = 0x04#8
  · obtain ⟨rfl, rfl⟩ := hsource (.inr (.inr h4))
    rw [hdestination (.inl h4)]
  by_cases h5 : op = 0x05#8
  · rw [hdestination (.inr h5), h5]; rfl
  simp only [commandOfOpcode, if_neg h2, if_neg h3, if_neg h4, if_neg h5]

/-- The decoder reads `W0` and the operand words of the command that `W0` selects (R62, R66). -/
theorem decodeDescriptor_congr {d e : Descriptor} (hw0 : e.w0 = d.w0)
    (hsource : d.opcode = 0x01#8 ∨ d.opcode = 0x02#8 ∨ d.opcode = 0x03#8 ∨ d.opcode = 0x04#8 →
      e.w1 = d.w1 ∧ e.w3 = d.w3)
    (hdestination : d.opcode = 0x04#8 ∨ d.opcode = 0x05#8 → e.w2 = d.w2) :
    decodeDescriptor e = decodeDescriptor d := by
  have hres : e.reserved = d.reserved := by rw [Descriptor.reserved, hw0, Descriptor.reserved]
  have hmode : e.modeBit = d.modeBit := by rw [Descriptor.modeBit, hw0, Descriptor.modeBit]
  have hop : e.opcode = d.opcode := by rw [Descriptor.opcode, hw0, Descriptor.opcode]
  have hcommand := commandOfOpcode_congr (fun hrow => hsource (.inr hrow)) hdestination
  unfold decodeDescriptor
  rw [hres, hmode, hop, hcommand]
  by_cases hkey : d.opcode = 0x01#8
  case pos =>
    obtain ⟨hsrc, hlen⟩ := hsource (.inl hkey)
    rw [hsrc, hlen]
  case neg => simp only [if_neg hkey]

/-- Settles O4: the two descriptors decode alike, and execution sees only what the decoder gives. -/
theorem ignoredWordsHaveNoEffect : Obligations.IgnoredWordsHaveNoEffect := by
  intro d e s hw0 hsource hdestination
  have hdecode := decodeDescriptor_congr hw0 hsource hdestination
  exact ⟨hdecode, by rw [execDescriptor, hdecode, execDescriptor]⟩

end Sys2Proof
end

section
/-!
Rotation, the word-round and buffer memory (spec/40_mixing_primitives.md R81, R87, R88; spec/10_state.md R13;
spec/20_memory.md R42 to R49).
-/

namespace Sys2Proof

open Machine

/-! Rotation (R81). -/

theorem getLsbD_rotl_add (x : Word) {n k : Nat} (hn : n ≤ 31) (hk : k < 32) :
    (rotl x n).getLsbD ((k + n) % 32) = x.getLsbD k := by
  rw [getLsbD_rotl x (by omega) (Nat.mod_lt _ (by decide))]
  by_cases hwraps : 32 ≤ k + n
  case pos =>
    rw [if_pos (by omega)]
    congr 1
    omega
  case neg =>
    rw [if_neg (by omega)]
    congr 1
    omega

theorem rotateRight_eq_rotl (x : Word) {n : Nat} (hn : n ≤ 31) : x.rotateRight n = rotl x (32 - n) := by
  rw [rotl, Nat.sub_sub_self (by omega), BitVec.or_comm, BitVec.rotateRight_def, Nat.mod_eq_of_lt (by omega)]

/-- Settles O19: the formula is the model's own; the bits by whether the sum wraps; the examples are run. -/
theorem rotlMovesBits : Obligations.RotlMovesBits :=
  ⟨fun x _ _ hn => ⟨rfl, fun _ hk => getLsbD_rotl_add x hn hk, rotateRight_eq_rotl x hn⟩,
    by decide, by decide, by decide, by decide, by decide⟩

/-! The word-round (R88). -/

/-- Settles O22: the model's word-round with the feedback word worked out for each kind. -/
theorem wordRoundEquations : Obligations.WordRoundEquations := by
  intro inw nb kind s
  cases kind <;> rfl

/-- Putting out twice gives the valid bytes back: the keystream cancels (R126). -/
theorem outputWord_outputWord (w : Word) (nb : Nat) (s : State) :
    outputWord (outputWord w nb s) nb s = w &&& byteMask nb := by
  simp only [outputWord]
  ext k hk
  simp only [BitVec.getElem_and, BitVec.getElem_xor]
  cases w[k] <;> cases (keystream s)[k] <;> cases (byteMask nb)[k] <;> rfl

theorem outputWord_and_byteMask (w : Word) (nb : Nat) (s : State) :
    outputWord w nb s &&& byteMask nb = outputWord w nb s := by
  rw [outputWord, BitVec.and_assoc, BitVec.and_self]

/-- The decrypting round on what the encrypting round has put out ends where that one ends, and gives its input back
(R126, R127). -/
theorem wordRound_dec_outputWord {plain : Word} {nb : Nat} (hplain : plain &&& byteMask nb = plain) (s : State) :
    wordRound (outputWord plain nb s) nb .dec s = (absorb plain s, plain) := by
  rw [wordRound, feedbackWord_dec, outputWord_outputWord, hplain]

/-- Settles O23: all three kinds absorb the plaintext word. -/
theorem feedbackIsThePlaintext : Obligations.FeedbackIsThePlaintext := by
  intro plain nb s _ _ hplain
  exact ⟨rfl, wordRound_dec_outputWord hplain s, rfl, outputWord_and_byteMask plain nb s⟩

/-! The history buffer (R13). -/

/-- A retired word stands in its own slot and in no other (R88). -/
theorem histWord_histRetire (h : Vector Word 4) (k j : Nat) (w : Word) :
    histWord (histRetire h k w) j = if k % 4 = j % 4 then w else histWord h j := by
  simp only [histWord, histRetire, Vector.getElem_set]

/-- The round counter wraps at a multiple of 4, so the slot moves on by one each round (R13, R20). -/
theorem toNat_add_mod_four (i : Word) (k : Nat) : (i + BitVec.ofNat 32 k).toNat % 4 = (i.toNat + k) % 4 := by
  rw [BitVec.toNat_add, BitVec.toNat_ofNat]
  omega

/-- Three more rounds leave the slot of a round alone, whatever they retire (R13). -/
theorem histWord_after_three (h : Vector Word 4) (i w1 w2 w3 : Word) :
    histWord (histRetire (histRetire (histRetire h (i + 1).toNat w1) (i + 1 + 1).toNat w2) (i + 1 + 1 + 1).toNat w3)
      i.toNat = histWord h i.toNat := by
  have h1 : (i + 1).toNat % 4 = (i.toNat + 1) % 4 := toNat_add_mod_four i 1
  have h2 : (i + 1 + 1).toNat % 4 = ((i + 1).toNat + 1) % 4 := toNat_add_mod_four (i + 1) 1
  have h3 : (i + 1 + 1 + 1).toNat % 4 = ((i + 1 + 1).toNat + 1) % 4 := toNat_add_mod_four (i + 1 + 1) 1
  rw [histWord_histRetire, if_neg (by omega), histWord_histRetire, if_neg (by omega), histWord_histRetire,
    if_neg (by omega)]

/-- Settles O24: four rounds come back to the slot, and only the first of them wrote it. -/
theorem historySlotIsFourRoundsOld : Obligations.HistorySlotIsFourRoundsOld := by
  intro s w1 w2 w3 w4 n1 n2 n3 n4 k1 k2 k3 k4 s1 s2 s3 s4
  have hcount : s4.i = s.i + 4 := by
    show s.i + 1 + 1 + 1 + 1 = s.i + 4
    rw [BitVec.add_assoc, BitVec.add_assoc, BitVec.add_assoc]
    rfl
  have hslot : s4.i.toNat % 4 = s.i.toNat % 4 := by
    rw [hcount]
    have hturn : (s.i + 4).toNat % 4 = (s.i.toNat + 4) % 4 := toNat_add_mod_four s.i 4
    rw [hturn, Nat.add_mod_right]
  refine ⟨?_, hcount⟩
  calc histWord s4.oldz s4.i.toNat
      = histWord s4.oldz s.i.toNat := by simp only [histWord, hslot]
    _ = histWord s1.oldz s.i.toNat := histWord_after_three s1.oldz s.i s2.z.z4 s3.z.z4 s4.z.z4
    _ = s1.z.z4 := by
      show histWord (histRetire s.oldz s.i.toNat s1.z.z4) s.i.toNat = s1.z.z4
      rw [histWord_histRetire, if_pos rfl]

/-! A word by its bytes (R43). -/

theorem word_eq_of_bytes {v w : Word} (h : ∀ k < 4, v.extractLsb' (8 * k) 8 = w.extractLsb' (8 * k) 8) : v = w := by
  rw [← wordOfBytes_extract v, ← wordOfBytes_extract w]
  congr 1
  · exact h 0 (by decide)
  · exact h 1 (by decide)
  · exact h 2 (by decide)
  · exact h 3 (by decide)

/-- `MASK(nb)` keeps the bytes below `nb` (R90). -/
theorem extractByte_byteMask : ∀ n ≤ 4, ∀ k < 4,
    (byteMask n).extractLsb' (8 * k) 8 = if k < n then BitVec.allOnes 8 else 0#8 := by
  decide

theorem extractByte_and_byteMask (w : Word) {n k : Nat} (hn : n ≤ 4) (hk : k < 4) :
    (w &&& byteMask n).extractLsb' (8 * k) 8 = if k < n then w.extractLsb' (8 * k) 8 else 0 := by
  rw [BitVec.extractLsb'_and, extractByte_byteMask n hn k hk]
  split
  · exact BitVec.and_allOnes
  · exact BitVec.and_zero

/-! `MemRead` and `MemWrite`. -/

theorem memRead_zero (m : Memory) (a : Nat) : memRead m a 0 = 0 := rfl

theorem memRead_succ (m : Memory) (a n : Nat) :
    memRead m a (n + 1) = (readByte m a).setWidth 32 + (memRead m (a + 1) n <<< 8) := rfl

theorem memRead_one (m : Memory) (a : Nat) : memRead m a 1 = (readByte m a).setWidth 32 := by
  rw [memRead_succ, memRead_zero, BitVec.ofNat_eq_ofNat, BitVec.zero_shiftLeft, BitVec.add_zero]

/-- Settles O26: the recursion of `MemRead` unrolled, each shift taken to its byte. -/
theorem memReadIsTheByteSum : Obligations.MemReadIsTheByteSum := by
  intro m a
  refine ⟨memRead_one m a, ?two, ?three, ?four⟩
  case two => rw [memRead_succ, memRead_one]
  case three =>
    simp only [memRead_succ m _ 2, memRead_succ m _ 1, memRead_one, BitVec.shiftLeft_add_distrib,
      ← BitVec.shiftLeft_add, BitVec.add_assoc, Nat.reduceAdd, Nat.add_assoc]
  case four =>
    simp only [memRead_succ m _ 3, memRead_succ m _ 2, memRead_succ m _ 1, memRead_one, BitVec.shiftLeft_add_distrib,
      ← BitVec.shiftLeft_add, BitVec.add_assoc, Nat.reduceAdd, Nat.add_assoc]

/-- A load is zero above its bytes (R44). -/
theorem memRead_and_byteMask (m : Memory) (a : Nat) {n : Nat} (hn : n ≤ 4) :
    memRead m a n &&& byteMask n = memRead m a n := by
  refine word_eq_of_bytes fun k hk => ?_
  rw [extractByte_and_byteMask _ hn hk, extractByte_memRead m a n hn k hk]
  split <;> rfl

/-- Where the bytes of a range are those of a word, a load of the range gives the word's valid bytes (R42, R43). -/
theorem memRead_eq_of_bytes {m : Memory} {a n : Nat} {w : Word} (hn : n ≤ 4)
    (hbytes : ∀ k < n, readByte m (a + k) = w.extractLsb' (8 * k) 8) : memRead m a n = w &&& byteMask n := by
  refine word_eq_of_bytes fun k hk => ?_
  rw [extractByte_and_byteMask w hn hk, extractByte_memRead m a n hn k hk]
  split
  case isTrue hlow => exact hbytes k hlow
  case isFalse => rfl

/-- A byte a store has written (R42). -/
theorem readByte_memWrite_inside (m : Memory) (a : Nat) {n k : Nat} (v : Word) (hk : k < n) :
    readByte (memWrite m a n v) (a + k) = v.extractLsb' (8 * k) 8 := by
  rw [readByte_memWrite, if_pos (by omega), Nat.add_sub_cancel_left]

/-- A byte outside the range of a store (R49). -/
theorem readByte_memWrite_outside (m : Memory) {a n b : Nat} (v : Word) (hb : b < a ∨ a + n ≤ b) :
    readByte (memWrite m a n v) b = readByte m b := by
  rw [readByte_memWrite, if_neg (by omega)]

/-- Settles O27: both loads byte by byte. -/
theorem storeThenLoad : Obligations.StoreThenLoad := by
  intro m a n v hn
  refine ⟨memRead_eq_of_bytes hn fun k hk => readByte_memWrite_inside m a v hk, fun b k hdisjoint => ?_⟩
  exact memRead_congr fun j hj => readByte_memWrite_outside m v (by omega)

/-! Admission (R47). -/

theorem rangeAdmitted_zero (p : Admit) (a : Word) : rangeAdmitted p a 0 = true := rfl

theorem rangeAdmitted_iff {p : Admit} {a : Word} {n : Nat} (hn : 1 ≤ n) :
    rangeAdmitted p a n = true ↔
      a.toNat + n ≤ addrSpace ∧ ∀ b, a.toNat ≤ b → b < a.toNat + n → admits p b = true := by
  have hne : (n == 0) = false := beq_eq_false_iff_ne.mpr (by omega)
  rw [rangeAdmitted, hne, Bool.false_or, Bool.and_eq_true, decide_eq_true_eq, admitsAll_iff]

/-- Settles O28: the empty range is the first test, the rest are the other two. -/
theorem admissionIsExact : Obligations.AdmissionIsExact := by
  intro p a n
  refine ⟨fun hzero => hzero ▸ rangeAdmitted_zero p a, fun hn => ?_⟩
  rw [rangeAdmitted_iff hn]
  refine and_congr_right fun _ => forall₂_congr fun b _ => ?_
  rw [show b < a.toNat + n ↔ b ≤ a.toNat + n - 1 by omega]

end Sys2Proof
end

section
/-!
The setup commands (spec/41_setup_commands.md R100 to R106): `KeyLoad` byte by byte, a sub-round of `KeyMix`, the rounds
of the initialiser, and what `SETUP_KEY`, `SETUP_NONCE` and `RESET` do when they are accepted.
-/

namespace Sys2Proof

open Machine

/-! `KeyLoad` (R101). -/

theorem schedWord_of_lt (x : Vector Word 8) {k : Nat} (hk : k < 8) : schedWord x k = x[k] := by
  simp only [schedWord, Nat.mod_eq_of_lt hk]

/-- A byte shifted to place `c` of a word is byte `c` of the word, the other bytes are 0. -/
theorem extractByte_shiftLeft (b : Byte) {c j : Nat} (hj : j < 4) :
    (b.setWidth 32 <<< (8 * c)).extractLsb' (8 * j) 8 = if c = j then b else 0 := by
  ext i hi
  simp only [BitVec.getElem_extractLsb', BitVec.getLsbD_shiftLeft, BitVec.getLsbD_setWidth]
  split
  case isTrue hplace =>
    subst hplace
    have h32 : 8 * c + i < 32 := by omega
    have hlow : ¬ 8 * c + i < 8 * c := by omega
    simp [h32, hlow, show i < 32 by omega, BitVec.getLsbD_eq_getElem hi]
  case isFalse hplace =>
    by_cases hbelow : 8 * j + i < 8 * c
    · simp [hbelow]
    · simp [BitVec.getLsbD_of_ge b (8 * j + i - 8 * c) (by omega)]

/-- One loaded byte: it is ORed into its own place and no other byte changes (R101). -/
theorem extractByte_keyLoadByte (m : Memory) (src : Nat) (k : Vector Word 8) {b w j : Nat} (hw : w < 8) (hj : j < 4) :
    ((keyLoadByte m src k b)[w]).extractLsb' (8 * j) 8 =
      if b = 4 * w + j then (k[w]).extractLsb' (8 * j) 8 ||| readByte m (src + b)
      else (k[w]).extractLsb' (8 * j) 8 := by
  rw [keyLoadByte, Vector.getElem_setIfInBounds]
  by_cases hword : b / 4 = w
  case neg => rw [if_neg hword, if_neg (by omega)]
  case pos =>
    subst hword
    rw [if_pos rfl, schedWord_of_lt k hw, BitVec.extractLsb'_or, memRead_one, extractByte_shiftLeft _ hj]
    by_cases hplace : b % 4 = j
    · rw [if_pos hplace, if_pos (by omega)]
    · rw [if_neg hplace, if_neg (by omega)]
      exact BitVec.or_zero

/-- After the first `n` key bytes: those bytes stand in their places, and the rest is 0 (R101). -/
theorem extractByte_loadedBytes (m : Memory) (src n : Nat) {w j : Nat} (hw : w < 8) (hj : j < 4) :
    (((List.range n).foldl (keyLoadByte m src) (Vector.replicate 8 0))[w]).extractLsb' (8 * j) 8 =
      if 4 * w + j < n then readByte m (src + 4 * w + j) else 0 := by
  induction n with
  | zero =>
    rw [if_neg (Nat.not_lt_zero _), List.range_zero, List.foldl_nil, Vector.getElem_replicate]
    exact BitVec.extractLsb'_zero
  | succ n ih =>
    rw [List.range_succ, List.foldl_append, List.foldl_cons, List.foldl_nil, extractByte_keyLoadByte m src _ hw hj, ih]
    by_cases hplace : n = 4 * w + j
    case pos =>
      subst hplace
      rw [if_pos rfl, if_neg (Nat.lt_irrefl _), if_pos (Nat.lt_succ_self _), ← Nat.add_assoc]
      exact BitVec.zero_or
    case neg =>
      rw [if_neg hplace]
      exact if_congr (by omega) rfl rfl

/-- The mask of a partial top word keeps the bytes that the key has there (R101). -/
theorem extractByte_keyMaskTop (k : Vector Word 8) {kbits w j : Nat} (hbytes : kbits % 8 = 0) (hw : w < 8)
    (hj : j < 4) :
    ((keyMaskTop k kbits)[w]).extractLsb' (8 * j) 8 =
      if kbits % 32 ≠ 0 ∧ kbits / 32 = w ∧ kbits / 8 ≤ 4 * w + j then 0 else (k[w]).extractLsb' (8 * j) 8 := by
  by_cases hpartial : kbits % 32 ≠ 0
  case neg => rw [keyMaskTop, if_neg hpartial, if_neg fun ⟨hne, _⟩ => hpartial hne]
  rw [keyMaskTop, if_pos hpartial, Vector.getElem_setIfInBounds]
  by_cases htop : kbits / 32 = w
  case neg => rw [if_neg htop, if_neg fun ⟨_, hword, _⟩ => htop hword]
  have hmask : BitVec.ofNat 32 (2 ^ (kbits % 32) - 1) = byteMask (kbits % 32 / 8) := by
    rw [byteMask, show 8 * (kbits % 32 / 8) = kbits % 32 by omega]
  rw [if_pos htop, htop, schedWord_of_lt k hw, hmask, extractByte_and_byteMask _ (by omega) hj]
  by_cases hkept : j < kbits % 32 / 8
  · rw [if_pos hkept, if_neg (by omega)]
  · rw [if_neg hkept, if_pos (by omega)]

/-- Settles O30: the loaded bytes, and the mask finds only zeros to clear. -/
theorem keyLoadPlacesEachByte : Obligations.KeyLoadPlacesEachByte := by
  intro m src kbits _ hbytes w j hj
  have hmask := extractByte_keyMaskTop ((List.range (kbits / 8)).foldl (keyLoadByte m src) (Vector.replicate 8 0))
    hbytes w.isLt hj
  rw [extractByte_loadedBytes m src (kbits / 8) w.isLt hj] at hmask
  refine hmask.trans ?_
  split
  case isTrue hcleared => rw [if_neg (by omega)]
  case isFalse => rfl

/-! `KeyMix` (R103). -/

/-- A fold into the upper half leaves the lower half alone. -/
theorem keyMixFold_upper (k : Vector Word 8) (t : Acc) :
    keyMixFold k 4 t =
      #v[k[0], k[1], k[2], k[3], k[4] ^^^ t.z0, k[5] ^^^ t.z1, k[6] ^^^ t.z2, k[7] ^^^ t.z3] := by
  refine Vector.ext fun i hi => ?_
  interval_cases i <;> simp [keyMixFold, schedWord]

/-- A fold into the lower half leaves the upper half alone. -/
theorem keyMixFold_lower (k : Vector Word 8) (t : Acc) :
    keyMixFold k 0 t =
      #v[k[0] ^^^ t.z0, k[1] ^^^ t.z1, k[2] ^^^ t.z2, k[3] ^^^ t.z3, k[4], k[5], k[6], k[7]] := by
  refine Vector.ext fun i hi => ?_
  interval_cases i <;> simp [keyMixFold, schedWord]

theorem keyMixRound_even (k : Vector Word 8) (kbits : Nat) {r : Nat} (hr : r % 2 = 0) :
    keyMixRound kbits k r = keyMixFold k 4 (mix 0 0 (mix 0 0 (keyMixTemp k 0 kbits))) := by
  simp only [keyMixRound, hr, Nat.mul_zero, Nat.zero_add, Nat.reduceMod]

theorem keyMixRound_odd (k : Vector Word 8) (kbits : Nat) {r : Nat} (hr : r % 2 = 1) :
    keyMixRound kbits k r = keyMixFold k 0 (mix 0 0 (mix 0 0 (keyMixTemp k 4 kbits))) := by
  simp only [keyMixRound, hr, Nat.mul_one, Nat.reduceAdd, Nat.reduceMod]

/-- Settles O31: the parity of the sub-round picks the source slice. -/
theorem keyMixSubround : Obligations.KeyMixSubround := by
  refine ⟨fun k kbits => ?order, fun k kbits r _ => ⟨fun hr => ?even, fun hr => ?odd⟩⟩
  case order => rw [keyMix, show List.range ksSubrounds = [0, 1, 2, 3, 4, 5, 6, 7] by decide]
  case even => exact (keyMixRound_even k kbits hr).trans (keyMixFold_upper k _)
  case odd => exact (keyMixRound_odd k kbits hr).trans (keyMixFold_lower k _)

/-! `SETUP_KEY` (R100). -/

theorem exec_setupKey_accepted {mode : Mode} {src kbits : Word} {s : State}
    (hpass : firstFailure (commandChecks (.setupKey mode src kbits) s) = none) :
    exec (.setupKey mode src kbits) s =
      .next { keyedState mode src kbits s with responses := s.responses ++ [0x00000000#32] } := by
  rw [exec_accepted hpass rfl, commandEffect, keyedState_responses]

/-- Settles O29: behind its checks `SETUP_KEY` reaches `keyedState`. -/
theorem setupKeyCompletes : Obligations.SetupKeyCompletes := by
  intro mode src kbits s hphase hmax hbytes hrange
  have hpass := (setupKey_pass_iff mode src kbits s).mpr ⟨hphase, ⟨hmax, hbytes⟩, hrange⟩
  rw [exec_setupKey_accepted hpass, keyedState, bumpOf]

/-- What `SETUP_KEY` sets depends on memory, the strap and its operands only, none of which it changes (R100). -/
theorem keyedState_keyedState (mode : Mode) (src kbits : Word) (s : State) (rsps : List Word) :
    keyedState mode src kbits { keyedState mode src kbits s with responses := rsps } =
      { keyedState mode src kbits s with responses := rsps } := by
  simp only [keyedState]

/-- Settles O33: a keyed engine passes the checks again and its registers are set to what they hold. -/
theorem setupKeyRepeatable : Obligations.SetupKeyRepeatable := by
  intro mode src kbits s t hexec hresponses
  have hpass := pass_of_responses hexec hresponses
  obtain ⟨_, hsize, hrange⟩ := (setupKey_pass_iff mode src kbits s).mp hpass
  rw [exec_setupKey_accepted hpass] at hexec
  have hstate := (Host.Outcome.next.inj hexec).symm
  have hphase : t.phase ≠ .erased := by simp [hstate]
  have hbacked : t.backed = s.backed := by simp [hstate]
  have hpass' := (setupKey_pass_iff mode src kbits t).mpr ⟨hphase, hsize, hbacked ▸ hrange⟩
  rw [exec_setupKey_accepted hpass', hstate, keyedState_keyedState]

/-! The rounds of the initialiser (R105). -/

/-- The accumulators after the first `r` rounds of the initialiser (R105). -/
def initAcc (x0 x1 : Vector Word 8) (n : Vector Word 4) : Nat → Acc
  | 0 => seedAcc x0 n
  | r + 1 => mix 0 (schedWord x1 r + BitVec.ofNat 32 r) (mix 0 (schedWord x0 r) (initAcc x0 x1 n r))

/-- The history after the first `r` rounds of the initialiser (R105). -/
def initHist (x0 x1 : Vector Word 8) (n hist : Vector Word 4) : Nat → Vector Word 4
  | 0 => hist
  | r + 1 => histRetire (initHist x0 x1 n hist r) r (initAcc x0 x1 n (r + 1)).z4

theorem foldl_initRound (x0 x1 : Vector Word 8) (n hist : Vector Word 4) (r : Nat) :
    (List.range r).foldl (initRound x0 x1) (seedAcc x0 n, hist) = (initAcc x0 x1 n r, initHist x0 x1 n hist r) := by
  induction r with
  | zero => rfl
  | succ r ih => rw [List.range_succ, List.foldl_append, List.foldl_cons, List.foldl_nil, ih]; rfl

/-- Four retirements in a row fill the history, whatever it held (R13). -/
theorem histRetire_four (h : Vector Word 4) (w0 w1 w2 w3 : Word) :
    histRetire (histRetire (histRetire (histRetire h 4 w0) 5 w1) 6 w2) 7 w3 = #v[w0, w1, w2, w3] := by
  refine Vector.ext fun i hi => ?_
  interval_cases i <;> simp [histRetire]

/-- The initialiser ends with the accumulators of its eighth round and the `Z4` of its last four (R105). -/
theorem initRun_eq (x0 x1 : Vector Word 8) (n hist : Vector Word 4) :
    initRun x0 x1 n hist = (initAcc x0 x1 n 8,
      #v[(initAcc x0 x1 n 5).z4, (initAcc x0 x1 n 6).z4, (initAcc x0 x1 n 7).z4, (initAcc x0 x1 n 8).z4]) := by
  rw [initRun, initRounds, foldl_initRound]
  exact congrArg _ (histRetire_four _ _ _ _ _)

/-- `NonceInit` in full: every register it sets is a function of `X0`, `BUMP` and `N` (R105). -/
theorem nonceInit_eq (s : State) :
    nonceInit s = { s with
      x1 := deriveX1 s.x0 s.bump s.n
      z := { initAcc s.x0 (deriveX1 s.x0 s.bump s.n) s.n 8 with
        z1 := (initAcc s.x0 (deriveX1 s.x0 s.bump s.n) s.n 8).z1 ^^^ aadMagic }
      oldz := #v[(initAcc s.x0 (deriveX1 s.x0 s.bump s.n) s.n 5).z4, (initAcc s.x0 (deriveX1 s.x0 s.bump s.n) s.n 6).z4,
        (initAcc s.x0 (deriveX1 s.x0 s.bump s.n) s.n 7).z4, (initAcc s.x0 (deriveX1 s.x0 s.bump s.n) s.n 8).z4]
      i := 8
      aadLen := 0
      msgLen := 0
      aadx := aadMagic } := by
  rw [nonceInit, initRun_eq]

/-- Settles O35: the three registers are all that the registers set are made of. -/
theorem nonceInitReadsOnlyKeyAndNonce : Obligations.NonceInitReadsOnlyKeyAndNonce := by
  intro s t hx0 hbump hn
  rw [nonceInit_eq s, nonceInit_eq t, hx0, hbump, hn]
  exact ⟨rfl, rfl, rfl, rfl, rfl, rfl, rfl⟩

theorem deriveX1_low (x0 : Vector Word 8) (bump : Word) (n : Vector Word 4) (k : Fin 4) :
    (deriveX1 x0 bump n)[k.val] = x0[k.val + 4] + n[k.val] + (if k.val = 1 then bump else 0) := by
  fin_cases k <;> simp [deriveX1]

theorem deriveX1_high (x0 : Vector Word 8) (bump : Word) (n : Vector Word 4) (k : Fin 4) :
    (deriveX1 x0 bump n)[k.val + 4] =
      x0[k.val] + (BitVec.ofNat 32 k.val - n[k.val]) + (if k.val = 1 then bump else 0) := by
  fin_cases k <;> simp [deriveX1]

/-- Settles O36: the words of `X1`, and the eight rounds one by one. -/
theorem nonceInitDerivesSchedule : Obligations.NonceInitDerivesSchedule := by
  intro s
  refine ⟨fun k => ⟨deriveX1_low s.x0 s.bump s.n k, deriveX1_high s.x0 s.bump s.n k⟩, ?rounds⟩
  case rounds =>
    refine ⟨(congrArg State.z (nonceInit_eq s)).trans ?_, (congrArg State.oldz (nonceInit_eq s)).trans ?_⟩
    · rfl
    · rfl

/-! `SETUP_NONCE` and `RESET` (R104, R106). -/

/-- Settles O34: behind its checks `SETUP_NONCE` reaches `armedState`. -/
theorem setupNonceCompletes : Obligations.SetupNonceCompletes := by
  intro src s hfresh herased hrange
  have hpass := (setupNonce_pass_iff src 128 s).mpr ⟨⟨hfresh, herased⟩, rfl, hrange⟩
  exact ⟨_, exec_accepted hpass rfl, rfl, rfl, rfl, rfl, rfl, rfl, rfl, rfl, rfl, rfl, rfl⟩

theorem exec_reset_accepted {s : State} (hphase : Sessioned s.phase) :
    exec .reset s = .next { nonceInit s with phase := .armed, responses := s.responses ++ [0x00000000#32] } :=
  exec_accepted ((reset_pass_iff s).mpr hphase) rfl

/-- Settles O37: in a session `RESET` runs the initialiser. -/
theorem resetCommandCompletes : Obligations.ResetCommandCompletes := by
  intro s hphase
  exact ⟨_, exec_reset_accepted hphase, rfl, rfl, rfl, rfl, rfl, rfl, rfl, rfl, rfl, rfl, rfl, rfl⟩

theorem nonceWords_eq {m : Memory} {src : Nat} {n : Vector Word 4}
    (hwords : ∀ k : Fin 4, n[k.val] = memRead m (src + 4 * k.val) 4) : nonceWords m src = n := by
  refine Vector.ext fun i hi => ?_
  rw [hwords ⟨i, hi⟩]
  interval_cases i <;> rfl

/-- Settles O38: the nonce `SETUP_NONCE` would save is the one `RESET` starts from. -/
theorem resetRepeatsNonceSetup : Obligations.ResetRepeatsNonceSetup := by
  intro src s hphase hrange hwords
  have hphases : s.phase ≠ .fresh ∧ s.phase ≠ .erased := by
    rcases hphase with hphase | hphase | hphase <;> rw [hphase] <;> decide
  have hpass := (setupNonce_pass_iff src 128 s).mpr ⟨hphases, rfl, hrange⟩
  rw [exec_reset_accepted hphase, exec_accepted hpass rfl, commandEffect, armedState, nonceWords_eq hwords]
  rfl

/-- Settles O39: by the invariant the initialiser leaves an `Armed` engine as it is. -/
theorem resetInArmedChangesNothing : Obligations.ResetInArmedChangesNothing := by
  intro s hinv harmed
  rw [exec_reset_accepted (.inl harmed), hinv.initialised harmed, ← harmed]

end Sys2Proof
end

section
/-!
The stream commands (spec/42_stream_commands.md R120 to R128): their loops as a fold over the words of the range, in two
chunks, and on buffers that are not overlapped forwards.
-/

namespace Sys2Proof

open Machine

/-! The words of a range (R89). -/

theorem wordCount_eq (len : Nat) : wordCount len = (len + 3) / 4 := rfl

/-- The range that is left after its first word has one word fewer. -/
theorem wordCount_tail {rem words : Nat} (hwords : wordCount rem = words + 1) :
    wordCount (rem - min rem 4) = words := by
  rw [wordCount_eq] at *
  omega

/-- A word that is not the last one is whole (R127). -/
theorem min_four_of_more {len words k : Nat} (hmore : k + (words + 2) ≤ wordCount len) : min (len - 4 * k) 4 = 4 := by
  rw [wordCount_eq] at hmore
  omega

/-! The loops as folds over the number of the word. -/

/-- Word `k` of `PROCESS_AAD`, read from the memory `m` (R120). -/
def aadStep (m : Memory) (src len : Nat) (u : State) (k : Nat) : State :=
  (wordRound (memRead m (src + 4 * k) (min (len - 4 * k) 4)) (min (len - 4 * k) 4) .aad u).1

/-- Word `k` of `PROCESS` (R121). -/
def processStep (kind : Kind) (src dst len : Nat) (u : State) (k : Nat) : State :=
  streamWord kind (src + 4 * k) (dst + 4 * k) (min (len - 4 * k) 4) u

theorem absorbWords_succ (words a rem : Nat) (s : State) :
    absorbWords (words + 1) a rem s = absorbWords words (a + min rem 4) (rem - min rem 4)
      (wordRound (memRead s.mem a (min rem 4)) (min rem 4) .aad s).1 := rfl

theorem streamWords_succ (kind : Kind) (words a d rem : Nat) (s : State) :
    streamWords kind (words + 1) a d rem s =
      streamWords kind words (a + min rem 4) (d + min rem 4) (rem - min rem 4)
        (streamWord kind a d (min rem 4) s) := rfl

theorem absorbWords_eq_foldl {m : Memory} {s : State} (hmem : s.mem = m) (src len words k : Nat)
    (hwords : k + words ≤ wordCount len) :
    absorbWords words (src + 4 * k) (len - 4 * k) s = (List.range' k words).foldl (aadStep m src len) s := by
  induction words generalizing k s with
  | zero => rw [absorbWords_zero, List.range'_zero, List.foldl_nil]
  | succ words ih =>
    have hkept : (aadStep m src len s k).mem = m := hmem
    rw [List.range'_succ, List.foldl_cons, ← ih hkept (k + 1) (by omega), absorbWords_succ, aadStep, hmem]
    cases words with
    | zero => rw [absorbWords_zero, absorbWords_zero]
    | succ words =>
      have hwhole : min (len - 4 * k) 4 = 4 := min_four_of_more (words := words) (by omega)
      rw [hwhole, Nat.mul_succ, Nat.sub_add_eq, ← Nat.add_assoc]

theorem streamWords_eq_foldl (kind : Kind) (src dst len words k : Nat) (s : State)
    (hwords : k + words ≤ wordCount len) :
    streamWords kind words (src + 4 * k) (dst + 4 * k) (len - 4 * k) s =
      (List.range' k words).foldl (processStep kind src dst len) s := by
  induction words generalizing k s with
  | zero => rw [streamWords_zero, List.range'_zero, List.foldl_nil]
  | succ words ih =>
    rw [List.range'_succ, List.foldl_cons, ← ih (k + 1) _ (by omega), streamWords_succ, processStep]
    cases words with
    | zero => rw [streamWords_zero, streamWords_zero]
    | succ words =>
      have hwhole : min (len - 4 * k) 4 = 4 := min_four_of_more (words := words) (by omega)
      rw [hwhole, Nat.mul_succ, Nat.sub_add_eq, ← Nat.add_assoc, ← Nat.add_assoc]

/-- The whole loop of `PROCESS_AAD`, one step for each word of the range. -/
theorem absorbWords_wordCount (src len : Nat) (s : State) :
    absorbWords (wordCount len) src len s = (List.range (wordCount len)).foldl (aadStep s.mem src len) s := by
  have hloop := absorbWords_eq_foldl (s := s) rfl src len (wordCount len) 0 (by omega)
  rwa [← List.range_eq_range', Nat.mul_zero, Nat.add_zero, Nat.sub_zero] at hloop

/-- The whole loop of `PROCESS`, one step for each word of the range. -/
theorem streamWords_wordCount (kind : Kind) (src dst len : Nat) (s : State) :
    streamWords kind (wordCount len) src dst len s =
      (List.range (wordCount len)).foldl (processStep kind src dst len) s := by
  have hloop := streamWords_eq_foldl kind src dst len (wordCount len) 0 s (by omega)
  rwa [← List.range_eq_range', Nat.mul_zero, Nat.add_zero, Nat.add_zero, Nat.sub_zero] at hloop

/-! A change of registers that the rounds neither read nor write can be made before the loop or after it. -/

theorem absorbWords_comm {f : State → State} (hmem : ∀ s, (f s).mem = s.mem)
    (hf : ∀ inw nb s, (wordRound inw nb .aad (f s)).1 = f (wordRound inw nb .aad s).1) (words a rem : Nat) (s : State) :
    absorbWords words a rem (f s) = f (absorbWords words a rem s) := by
  induction words generalizing a rem s with
  | zero => rfl
  | succ words ih => rw [absorbWords, hf, ih, hmem, ← absorbWords]

theorem streamWords_comm {kind : Kind} {f : State → State}
    (hf : ∀ a d nb s, streamWord kind a d nb (f s) = f (streamWord kind a d nb s)) (words a d rem : Nat) (s : State) :
    streamWords kind words a d rem (f s) = f (streamWords kind words a d rem s) := by
  induction words generalizing a d rem s with
  | zero => rfl
  | succ words ih => rw [streamWords, hf, ih, ← streamWords]

/-! `PROCESS_AAD` and `PROCESS` completed. -/

theorem exec_processAad_accepted {src len : Word} {s : State}
    (hpass : firstFailure (commandChecks (.processAad src len) s) = none) :
    exec (.processAad src len) s =
      .next { absorbedState src len s with responses := s.responses ++ [0x00000000#32] } := by
  rw [exec_accepted hpass rfl, commandEffect, absorbedState_responses]

theorem exec_process_accepted {src dst len : Word} {s : State}
    (hpass : firstFailure (commandChecks (.process src dst len) s) = none) :
    exec (.process src dst len) s =
      .next { processedState src dst len s with responses := s.responses ++ [0x00000000#32] } := by
  rw [exec_accepted hpass rfl, commandEffect, processedState_responses]

/-- Settles O40: the loop as a fold; the bookkeeping is made after it as well as before it. -/
theorem processAadCompletes : Obligations.ProcessAadCompletes := by
  intro src len s hphase hpending haligned hrange
  have hpass := (processAad_pass_iff src len s).mpr ⟨hphase, hpending, haligned, hrange⟩
  refine ⟨_, exec_processAad_accepted hpass, ?result, ?frame⟩
  case frame =>
    obtain ⟨z, oldz, hstate⟩ := absorbedState_spec src len s
    rw [hstate]
    exact ⟨rfl, rfl, rfl, rfl, rfl, rfl, rfl, rfl, rfl, rfl, rfl⟩
  case result =>
    have hcomm := absorbWords_comm (f := fun u => { u with aadLen := s.aadLen + len.setWidth 64, phase := .streaming })
      (fun _ => rfl) (fun _ _ _ => rfl) (wordCount len.toNat) src.toNat len.toNat s
    rw [absorbedState, hcomm, absorbWords_wordCount]
    rfl

theorem kindOfMode_eq (m : Mode) : kindOfMode m = if m = .encrypt then .enc else .dec := by cases m <;> rfl

/-- Settles O41: as O40, with the pending XOR consumed before the loop. -/
theorem processCompletes : Obligations.ProcessCompletes := by
  intro src dst len s hphase haligned hsrc hdst
  have hpass := (process_pass_iff src dst len s).mpr ⟨hphase, haligned, hsrc, hdst⟩
  obtain ⟨z, oldz, m, hstate⟩ := processedState_spec src dst len s
  refine ⟨_, exec_process_accepted hpass, ?result, by rw [hstate]; rfl, ?stores, ?frame⟩
  case frame =>
    rw [hstate]
    exact ⟨rfl, rfl, rfl, rfl, rfl, rfl, rfl, rfl⟩
  case stores =>
    intro a ha
    exact readByte_streamWords_outside _ _ _ _ _ (messageStart len s) ha
  case result =>
    have hcomm := streamWords_comm (kind := kindOfMode s.mode)
      (f := fun u => { u with aadx := 0, msgLen := s.msgLen + len.setWidth 64, phase := .streaming })
      (fun _ _ _ _ => rfl) (wordCount len.toNat) src.toNat dst.toNat len.toNat
      { s with z := { s.z with z1 := s.z.z1 ^^^ s.aadx } }
    rw [processedState, messageStart, hcomm, streamWords_wordCount, ← kindOfMode_eq]
    rfl

end Sys2Proof
end

section
/-!
Chunking of the stream commands (spec/42_stream_commands.md R124): a loop over a range is the loop over its first words
and then the loop over the rest.
-/

namespace Sys2Proof

open Machine

/-! The loops in two chunks. -/

theorem absorbWords_append (words1 words2 a rem : Nat) (s : State) (hfirst : 4 * words1 ≤ rem) :
    absorbWords (words1 + words2) a rem s =
      absorbWords words2 (a + 4 * words1) (rem - 4 * words1) (absorbWords words1 a (4 * words1) s) := by
  induction words1 generalizing a rem s with
  | zero => rw [absorbWords_zero, Nat.zero_add, Nat.mul_zero, Nat.add_zero, Nat.sub_zero]
  | succ words1 ih =>
    have hwhole : min rem 4 = 4 := by omega
    have hwhole' : min (4 * words1 + 4) 4 = 4 := by omega
    rw [Nat.add_right_comm words1 1 words2, Nat.mul_succ, absorbWords_succ, absorbWords_succ, hwhole, hwhole',
      ih _ _ _ (by omega), Nat.add_sub_cancel, Nat.add_assoc, Nat.sub_sub, Nat.add_comm 4]

theorem streamWords_append (kind : Kind) (words1 words2 a d rem : Nat) (s : State) (hfirst : 4 * words1 ≤ rem) :
    streamWords kind (words1 + words2) a d rem s =
      streamWords kind words2 (a + 4 * words1) (d + 4 * words1) (rem - 4 * words1)
        (streamWords kind words1 a d (4 * words1) s) := by
  induction words1 generalizing a d rem s with
  | zero => rw [streamWords_zero, Nat.zero_add, Nat.mul_zero, Nat.add_zero, Nat.add_zero, Nat.sub_zero]
  | succ words1 ih =>
    have hwhole : min rem 4 = 4 := by omega
    have hwhole' : min (4 * words1 + 4) 4 = 4 := by omega
    rw [Nat.add_right_comm words1 1 words2, Nat.mul_succ, streamWords_succ, streamWords_succ, hwhole, hwhole',
      ih _ _ _ _ (by omega), Nat.add_sub_cancel, Nat.add_assoc, Nat.add_assoc, Nat.sub_sub, Nat.add_comm 4]

/-- A first chunk that is a multiple of 4 is made of whole words (R89, R124). -/
theorem wordCount_of_aligned {len1 : Nat} (haligned : len1 % 4 = 0) (len2 : Nat) :
    4 * wordCount len1 = len1 ∧ wordCount (len1 + len2) = wordCount len1 + wordCount len2 := by
  simp only [wordCount_eq]
  omega

theorem absorbWords_chunks {len1 : Nat} (haligned : len1 % 4 = 0) (src len2 : Nat) (s : State) :
    absorbWords (wordCount (len1 + len2)) src (len1 + len2) s =
      absorbWords (wordCount len2) (src + len1) len2 (absorbWords (wordCount len1) src len1 s) := by
  obtain ⟨hwhole, hcount⟩ := wordCount_of_aligned haligned len2
  rw [hcount, absorbWords_append _ _ _ _ _ (by omega), hwhole, Nat.add_sub_cancel_left]

theorem streamWords_chunks {len1 : Nat} (haligned : len1 % 4 = 0) (kind : Kind) (src dst len2 : Nat) (s : State) :
    streamWords kind (wordCount (len1 + len2)) src dst (len1 + len2) s =
      streamWords kind (wordCount len2) (src + len1) (dst + len1) len2
        (streamWords kind (wordCount len1) src dst len1 s) := by
  obtain ⟨hwhole, hcount⟩ := wordCount_of_aligned haligned len2
  rw [hcount, streamWords_append _ _ _ _ _ _ _ (by omega), hwhole, Nat.add_sub_cancel_left]

/-! The operands of the two calls. -/

/-- The second chunk's address does not wrap, but at the top of the address space with nothing left to do (R47). -/
theorem toNat_second_address {p : Admit} {a n1 : Word} {n2 : Nat}
    (hrange : rangeAdmitted p a (n1.toNat + n2) = true) (hn2 : n2 ≠ 0) : (a + n1).toNat = a.toNat + n1.toNat := by
  have hroom := le_addrSpace_of_rangeAdmitted hrange
  rw [addrSpace] at hroom
  exact BitVec.toNat_add_of_lt (by omega)

theorem absorbWords_second {p : Admit} {src n1 : Word} {n2 : Nat}
    (hsrc : rangeAdmitted p src (n1.toNat + n2) = true) (s : State) :
    absorbWords (wordCount n2) (src + n1).toNat n2 s = absorbWords (wordCount n2) (src.toNat + n1.toNat) n2 s := by
  by_cases hn2 : n2 = 0
  · rw [hn2]; rfl
  · rw [toNat_second_address hsrc hn2]

theorem streamWords_second {p : Admit} {src dst n1 : Word} {n2 : Nat}
    (hsrc : rangeAdmitted p src (n1.toNat + n2) = true) (hdst : rangeAdmitted p dst (n1.toNat + n2) = true)
    (kind : Kind) (s : State) :
    streamWords kind (wordCount n2) (src + n1).toNat (dst + n1).toNat n2 s =
      streamWords kind (wordCount n2) (src.toNat + n1.toNat) (dst.toNat + n1.toNat) n2 s := by
  by_cases hn2 : n2 = 0
  · rw [hn2]; rfl
  · rw [toNat_second_address hsrc hn2, toNat_second_address hdst hn2]

/-- Both parts of an admitted range are admitted (R47). -/
theorem rangeAdmitted_parts {p : Admit} {a n1 : Word} {n2 : Nat} (hrange : rangeAdmitted p a (n1.toNat + n2) = true) :
    rangeAdmitted p a n1.toNat = true ∧ rangeAdmitted p (a + n1) n2 = true := by
  constructor
  case left =>
    by_cases hn1 : n1.toNat = 0
    · rw [hn1, rangeAdmitted_zero]
    obtain ⟨hroom, hbacked⟩ := (rangeAdmitted_iff (by omega)).mp hrange
    exact (rangeAdmitted_iff (by omega)).mpr ⟨by omega, fun b hlo hhi => hbacked b hlo (by omega)⟩
  case right =>
    by_cases hn2 : n2 = 0
    · rw [hn2, rangeAdmitted_zero]
    obtain ⟨hroom, hbacked⟩ := (rangeAdmitted_iff (by omega)).mp hrange
    have haddress := toNat_second_address hrange hn2
    exact (rangeAdmitted_iff (by omega)).mpr ⟨by omega, fun b hlo hhi => hbacked b (by omega) (by omega)⟩

/-- A counter stays a multiple of 4 over an aligned call; its wrap is one too (R21, R22). -/
theorem counter_add_mod_four {c : Counter64} {len : Word} (hc : c.toNat % 4 = 0) (hlen : len.toNat % 4 = 0) :
    (c + len.setWidth 64).toNat % 4 = 0 := by
  rw [BitVec.toNat_add, BitVec.toNat_setWidth]
  omega

theorem setWidth_add {len1 len2 : Word} (hsum : len1.toNat + len2.toNat < 2 ^ 32) :
    (len1 + len2).setWidth 64 = len1.setWidth 64 + len2.setWidth 64 := by
  apply BitVec.eq_of_toNat_eq
  rw [BitVec.toNat_setWidth, BitVec.toNat_add_of_lt hsum, BitVec.toNat_add, BitVec.toNat_setWidth,
    BitVec.toNat_setWidth]
  omega

/-! The bookkeeping of two calls. -/

/-- A state with other counters and other responses, none of which a word-round reads. -/
def recounted (aadLen msgLen : Counter64) (rsps : List Word) (s : State) : State :=
  { s with aadLen := aadLen, msgLen := msgLen, responses := rsps }

theorem absorbWords_recounted (aadLen msgLen : Counter64) (rsps : List Word) (words a rem : Nat) (s : State) :
    absorbWords words a rem (recounted aadLen msgLen rsps s) =
      recounted aadLen msgLen rsps (absorbWords words a rem s) :=
  absorbWords_comm (f := recounted aadLen msgLen rsps) (fun _ => rfl) (fun _ _ _ => rfl) words a rem s

theorem streamWords_recounted (aadLen msgLen : Counter64) (rsps : List Word) (kind : Kind) (words a d rem : Nat)
    (s : State) :
    streamWords kind words a d rem (recounted aadLen msgLen rsps s) =
      recounted aadLen msgLen rsps (streamWords kind words a d rem s) :=
  streamWords_comm (fun _ _ _ _ => rfl) words a d rem s

section
variable {src dst len1 len2 : Word} {s : State} (haligned : len1.toNat % 4 = 0)
  (hsum : len1.toNat + len2.toNat < 2 ^ 32)
  (hsrc : rangeAdmitted s.backed src (len1.toNat + len2.toNat) = true)
include haligned hsum hsrc

/-- The second call of `PROCESS` takes up where the first has ended, whatever the responses (R124): its bookkeeping can
be made after both loops as well, and the two loops in a row are the one loop of the whole. -/
theorem processedState_chunks (hdst : rangeAdmitted s.backed dst (len1.toNat + len2.toNat) = true) (rsps : List Word) :
    processedState (src + len1) (dst + len1) len2 { processedState src dst len1 s with responses := rsps } =
      { processedState src dst (len1 + len2) s with responses := rsps } := by
  have hsumNat : (len1 + len2).toNat = len1.toNat + len2.toNat := BitVec.toNat_add_of_lt hsum
  have hstart : messageStart len2 { processedState src dst len1 s with responses := rsps } =
      recounted s.aadLen (s.msgLen + (len1 + len2).setWidth 64) rsps (processedState src dst len1 s) := by
    obtain ⟨z, oldz, m, hfirst⟩ := processedState_spec src dst len1 s
    rw [hfirst, setWidth_add hsum, ← BitVec.add_assoc, messageStart, recounted]
    simp
  have hmode : (processedState src dst len1 s).mode = s.mode := by
    obtain ⟨z, oldz, m, hfirst⟩ := processedState_spec src dst len1 s
    rw [hfirst]
  have hwhole : recounted s.aadLen (s.msgLen + (len1 + len2).setWidth 64) rsps
      (processedState src dst (len1 + len2) s) = { processedState src dst (len1 + len2) s with responses := rsps } := by
    obtain ⟨z, oldz, m, hall⟩ := processedState_spec src dst (len1 + len2) s
    rw [hall, recounted]
  rw [← hwhole, processedState, hstart, hmode, streamWords_recounted, streamWords_second hsrc hdst]
  rw [processedState, ← streamWords_chunks haligned, ← streamWords_recounted, processedState, ← streamWords_recounted,
    hsumNat]
  rfl

/-- The second call of `PROCESS_AAD` takes up where the first has ended, by the same argument (R124). -/
theorem absorbedState_chunks (rsps : List Word) :
    absorbedState (src + len1) len2 { absorbedState src len1 s with responses := rsps } =
      { absorbedState src (len1 + len2) s with responses := rsps } := by
  have hsumNat : (len1 + len2).toNat = len1.toNat + len2.toNat := BitVec.toNat_add_of_lt hsum
  have hstart : { absorbedState src len1 s with
        responses := rsps, aadLen := (absorbedState src len1 s).aadLen + len2.setWidth 64, phase := .streaming } =
      recounted (s.aadLen + (len1 + len2).setWidth 64) s.msgLen rsps (absorbedState src len1 s) := by
    obtain ⟨z, oldz, hfirst⟩ := absorbedState_spec src len1 s
    rw [hfirst, setWidth_add hsum, ← BitVec.add_assoc, recounted]
  have hwhole : recounted (s.aadLen + (len1 + len2).setWidth 64) s.msgLen rsps (absorbedState src (len1 + len2) s) =
      { absorbedState src (len1 + len2) s with responses := rsps } := by
    obtain ⟨z, oldz, hall⟩ := absorbedState_spec src (len1 + len2) s
    rw [hall, recounted]
  rw [← hwhole, absorbedState, hstart, absorbWords_recounted, absorbWords_second hsrc]
  rw [absorbedState, ← absorbWords_chunks haligned, ← absorbWords_recounted, absorbedState, ← absorbWords_recounted,
    hsumNat]
  rfl

end

/-- Settles O42: both calls are accepted, and the second ends where one call would. -/
theorem chunkedProcessEqualsWhole : Obligations.ChunkedProcessEqualsWhole := by
  intro src dst len1 len2 s hphase hmsg haligned hsum hsrc hdst
  have hsumNat : (len1 + len2).toNat = len1.toNat + len2.toNat := BitVec.toNat_add_of_lt hsum
  obtain ⟨hsrc1, hsrc2⟩ := rangeAdmitted_parts hsrc
  obtain ⟨hdst1, hdst2⟩ := rangeAdmitted_parts hdst
  have hwhole := (process_pass_iff src dst (len1 + len2) s).mpr ⟨hphase, hmsg, hsumNat ▸ hsrc, hsumNat ▸ hdst⟩
  have hfirst := (process_pass_iff src dst len1 s).mpr ⟨hphase, hmsg, hsrc1, hdst1⟩
  have hsecond : firstFailure (commandChecks (.process (src + len1) (dst + len1) len2)
      { processedState src dst len1 s with responses := s.responses ++ [0x00000000#32] }) = none := by
    obtain ⟨z, oldz, m, hstate⟩ := processedState_spec src dst len1 s
    rw [hstate, process_pass_iff]
    exact ⟨.inr rfl, counter_add_mod_four hmsg haligned, hsrc2, hdst2⟩
  refine ⟨_, _, _, exec_process_accepted hwhole, exec_process_accepted hfirst, exec_process_accepted hsecond, rfl, ?_⟩
  rw [processedState_chunks haligned hsum hsrc hdst]
  simp

/-- Settles O43: as O42. -/
theorem chunkedAadEqualsWhole : Obligations.ChunkedAadEqualsWhole := by
  intro src len1 len2 s hphase hpending haad haligned hsum hsrc
  have hsumNat : (len1 + len2).toNat = len1.toNat + len2.toNat := BitVec.toNat_add_of_lt hsum
  obtain ⟨hsrc1, hsrc2⟩ := rangeAdmitted_parts hsrc
  have hwhole := (processAad_pass_iff src (len1 + len2) s).mpr ⟨hphase, hpending, haad, hsumNat ▸ hsrc⟩
  have hfirst := (processAad_pass_iff src len1 s).mpr ⟨hphase, hpending, haad, hsrc1⟩
  have hsecond : firstFailure (commandChecks (.processAad (src + len1) len2)
      { absorbedState src len1 s with responses := s.responses ++ [0x00000000#32] }) = none := by
    obtain ⟨z, oldz, hstate⟩ := absorbedState_spec src len1 s
    rw [hstate, processAad_pass_iff]
    exact ⟨.inr rfl, hpending, counter_add_mod_four haad haligned, hsrc2⟩
  refine ⟨_, _, _, exec_processAad_accepted hwhole, exec_processAad_accepted hfirst, exec_processAad_accepted hsecond,
    rfl, ?_⟩
  rw [absorbedState_chunks haligned hsum hsrc]
  simp

end Sys2Proof
end

section
/-!
Two engines side by side (spec/42_stream_commands.md R125, spec/20_memory.md R57): which registers a word-round computes
with, decryption of what was encrypted, and buffers that are not overlapped forwards. Then the order of the two data
commands in a session (R123, R128).
-/

namespace Sys2Proof

open Machine

/-! The registers a word-round computes with (R87, R88). -/

/-- Two engines that agree in the registers a word-round reads. -/
structure SameRounds (s t : State) : Prop where
  z : s.z = t.z
  oldz : s.oldz = t.oldz
  i : s.i = t.i
  x0 : s.x0 = t.x0
  x1 : s.x1 = t.x1

theorem SameRounds.symm {s t : State} (h : SameRounds s t) : SameRounds t s :=
  ⟨h.z.symm, h.oldz.symm, h.i.symm, h.x0.symm, h.x1.symm⟩

theorem SameRounds.trans {s t u : State} (h : SameRounds s t) (h' : SameRounds t u) : SameRounds s u :=
  ⟨h.z.trans h'.z, h.oldz.trans h'.oldz, h.i.trans h'.i, h.x0.trans h'.x0, h.x1.trans h'.x1⟩

section
variable {s t : State} (h : SameRounds s t)
include h

theorem SameRounds.emitAcc_eq : emitAcc s = emitAcc t := by
  rw [emitAcc, h.x0, h.i, h.z, emitAcc]

theorem SameRounds.outputWord_eq (w : Word) (nb : Nat) : outputWord w nb s = outputWord w nb t := by
  rw [outputWord, keystream, h.emitAcc_eq, h.oldz, h.i, outputWord, keystream]

theorem SameRounds.absorb (fb : Word) : SameRounds (absorb fb s) (absorb fb t) := by
  have hz : (Machine.absorb fb s).z = (Machine.absorb fb t).z := by
    rw [absorb_z, h.x1, h.i, h.emitAcc_eq, absorb_z]
  refine ⟨hz, ?_, ?_, h.x0, h.x1⟩
  · rw [absorb_oldz, hz, h.oldz, h.i, absorb_oldz]
  · rw [absorb_i, h.i, absorb_i]

theorem SameRounds.wordRound (w : Word) (nb : Nat) (kind : Kind) :
    SameRounds (wordRound w nb kind s).1 (wordRound w nb kind t).1 := by
  have hfeedback : feedbackWord w nb kind s = feedbackWord w nb kind t := by
    cases kind with
    | dec => exact h.outputWord_eq w nb
    | _ => rfl
  rw [wordRound_fst, wordRound_fst, hfeedback]
  exact h.absorb _

end

theorem SameRounds.withMem {s t : State} (h : SameRounds s t) (m m' : Memory) :
    SameRounds { s with mem := m } { t with mem := m' } := ⟨h.z, h.oldz, h.i, h.x0, h.x1⟩

/-! Buffers that are not overlapped forwards (R57). -/

/-- The reads of a loop stay ahead of its writes: `NoForwardOverlap` on addresses. -/
def ReadsAhead (a d rem : Nat) : Prop := d ≤ a ∨ a + rem ≤ d

/-- What is left of the range after its first `nb` bytes. -/
theorem ReadsAhead.tail {a d rem nb : Nat} (h : ReadsAhead a d rem) (hnb : nb ≤ rem) :
    ReadsAhead (a + nb) (d + nb) (rem - nb) := by
  unfold ReadsAhead at *
  omega

/-- The first word written is none of the bytes still to be read. -/
theorem ReadsAhead.readByte_memWrite {a d rem nb k : Nat} (h : ReadsAhead a d rem) (hk : k < rem - nb) (m : Memory)
    (w : Word) : readByte (memWrite m d nb w) (a + nb + k) = readByte m (a + nb + k) := by
  unfold ReadsAhead at h
  exact readByte_memWrite_outside m w (by omega)

/-- The first word written stays as it is to the end of the loop. -/
theorem readByte_streamWords_head (kind : Kind) (words a d rem : Nat) (s : State) {k : Nat} (hk : k < min rem 4) :
    readByte (streamWords kind (words + 1) a d rem s).mem (d + k) =
      (outputWord (memRead s.mem a (min rem 4)) (min rem 4) s).extractLsb' (8 * k) 8 := by
  rw [streamWords_succ, readByte_streamWords_outside _ _ _ _ _ _ (by omega), streamWord_mem,
    readByte_memWrite_inside _ _ _ hk]

/-- The bytes after the first word are written by the rest of the loop. -/
theorem readByte_streamWords_tail (kind : Kind) (words a d rem : Nat) (s : State) {k : Nat} (hk : ¬ k < min rem 4) :
    readByte (streamWords kind (words + 1) a d rem s).mem (d + k) =
      readByte (streamWords kind words (a + min rem 4) (d + min rem 4) (rem - min rem 4)
        (streamWord kind a d (min rem 4) s)).mem (d + min rem 4 + (k - min rem 4)) := by
  rw [streamWords_succ, Nat.add_assoc d, Nat.add_sub_cancel' (Nat.le_of_not_lt hk)]

/-! Decryption of what was encrypted (R125). -/

/-- The decrypting engine reads the word that the encrypting one has put out. -/
theorem memRead_ciphertext {words aE dE aD rem : Nat} {e d : State} (hsame : SameRounds e d)
    (hcipher : ∀ k, k < rem →
      readByte d.mem (aD + k) = readByte (streamWords .enc (words + 1) aE dE rem e).mem (dE + k)) :
    memRead d.mem aD (min rem 4) = outputWord (memRead e.mem aE (min rem 4)) (min rem 4) d := by
  rw [← hsame.outputWord_eq, ← outputWord_and_byteMask]
  refine memRead_eq_of_bytes (Nat.min_le_right rem 4) fun k hk => ?_
  rw [hcipher k (by omega), readByte_streamWords_head _ _ _ _ _ _ hk]

theorem streamWord_enc (a d nb : Nat) (s : State) :
    streamWord .enc a d nb s =
      { absorb (memRead s.mem a nb) s with mem := memWrite s.mem d nb (outputWord (memRead s.mem a nb) nb s) } := rfl

/-- A decrypting engine that reads the output for a plaintext word absorbs that word and writes it (R126). -/
theorem streamWord_dec_of_ciphertext {a d nb : Nat} {s : State} {plain : Word} (hplain : plain &&& byteMask nb = plain)
    (hread : memRead s.mem a nb = outputWord plain nb s) :
    streamWord .dec a d nb s = { absorb plain s with mem := memWrite s.mem d nb plain } := by
  rw [streamWord, hread, wordRound_dec_outputWord hplain]
  rfl

/-- Induction over the words: each word read is the one the encrypting engine has put out, so its plaintext is written,
and the two engines end the round in the same registers. -/
theorem decrypt_encrypt {words aE dE aD dD rem : Nat} {e d : State} (hwords : wordCount rem = words)
    (hsame : SameRounds e d) (haheadE : ReadsAhead aE dE rem) (haheadD : ReadsAhead aD dD rem)
    (hcipher : ∀ k, k < rem →
      readByte d.mem (aD + k) = readByte (streamWords .enc words aE dE rem e).mem (dE + k)) :
    SameRounds (streamWords .enc words aE dE rem e) (streamWords .dec words aD dD rem d) ∧
    ∀ k, k < rem → readByte (streamWords .dec words aD dD rem d).mem (dD + k) = readByte e.mem (aE + k) := by
  induction words generalizing aE dE aD dD rem e d with
  | zero =>
    refine ⟨hsame, fun k hk => ?_⟩
    rw [wordCount_eq] at hwords
    omega
  | succ words ih =>
    have hnb : min rem 4 ≤ rem := Nat.min_le_left rem 4
    have hnb4 : min rem 4 ≤ 4 := Nat.min_le_right rem 4
    have hmask := memRead_and_byteMask e.mem aE hnb4
    have hread := memRead_ciphertext hsame hcipher
    have hencrypted := streamWord_enc aE dE (min rem 4) e
    have hdecrypted := streamWord_dec_of_ciphertext (d := dD) hmask hread
    have hsame' : SameRounds (streamWord .enc aE dE (min rem 4) e) (streamWord .dec aD dD (min rem 4) d) := by
      rw [hencrypted, hdecrypted]
      exact (hsame.absorb _).withMem _ _
    have hcipher' : ∀ k, k < rem - min rem 4 →
        readByte (streamWord .dec aD dD (min rem 4) d).mem (aD + min rem 4 + k) =
          readByte (streamWords .enc words (aE + min rem 4) (dE + min rem 4) (rem - min rem 4)
            (streamWord .enc aE dE (min rem 4) e)).mem (dE + min rem 4 + k) := by
      intro k hk
      have hbyte := hcipher (min rem 4 + k) (by omega)
      rw [hdecrypted, haheadD.readByte_memWrite hk, Nat.add_assoc, hbyte, streamWords_succ, ← Nat.add_assoc]
    obtain ⟨hfinal, hbytes⟩ := ih (wordCount_tail hwords) hsame' (haheadE.tail hnb) (haheadD.tail hnb) hcipher'
    refine ⟨hfinal, fun k hk => ?_⟩
    by_cases hhead : k < min rem 4
    case pos =>
      rw [readByte_streamWords_head _ _ _ _ _ _ hhead, hread, outputWord_outputWord, hmask,
        extractByte_memRead _ _ _ hnb4 _ (by omega), if_pos hhead]
    case neg =>
      rw [readByte_streamWords_tail _ _ _ _ _ _ hhead, hbytes _ (by omega), hencrypted,
        haheadE.readByte_memWrite (by omega), Nat.add_assoc aE, Nat.add_sub_cancel' (Nat.le_of_not_lt hhead)]

theorem messageStart_sameRounds {s t : State} (h : SameCipher s t) (len : Word) :
    SameRounds (messageStart len s) (messageStart len t) := by
  refine ⟨?_, h.oldz, h.i, h.x0, h.x1⟩
  rw [messageStart_z, messageStart_z, h.z, h.aadx]

/-- Settles O44: the loops by `decrypt_encrypt`, from the same registers once both have consumed the pending XOR. -/
theorem decryptionInvertsEncryption : Obligations.DecryptionInvertsEncryption := by
  intro e d srcE dstE srcD dstD len hsame hmodeE hmodeD hphaseE hphaseD hmsgE hmsgD hsrcE hdstE hsrcD hdstD haheadE
    haheadD
  have hpassE := (process_pass_iff srcE dstE len e).mpr ⟨hphaseE, hmsgE, hsrcE, hdstE⟩
  have hpassD := (process_pass_iff srcD dstD len d).mpr ⟨hphaseD, hmsgD, hsrcD, hdstD⟩
  refine ⟨_, exec_process_accepted hpassE, fun hcipher => ⟨_, exec_process_accepted hpassD, ?_⟩⟩
  have hE : processedState srcE dstE len e =
      streamWords .enc (wordCount len.toNat) srcE.toNat dstE.toNat len.toNat (messageStart len e) := by
    rw [processedState, hmodeE]; rfl
  have hD : processedState srcD dstD len d =
      streamWords .dec (wordCount len.toNat) srcD.toNat dstD.toNat len.toNat (messageStart len d) := by
    rw [processedState, hmodeD]; rfl
  have haadxE : (processedState srcE dstE len e).aadx = 0 := by
    obtain ⟨z, oldz, m, hstate⟩ := processedState_spec srcE dstE len e
    rw [hstate]
  have haadxD : (processedState srcD dstD len d).aadx = 0 := by
    obtain ⟨z, oldz, m, hstate⟩ := processedState_spec srcD dstD len d
    rw [hstate]
  obtain ⟨⟨hz, holdz, hi, hx0, hx1⟩, hbytes⟩ := decrypt_encrypt (aD := srcD.toNat) (dD := dstD.toNat) rfl
    (messageStart_sameRounds hsame len) haheadE haheadD (fun k hk => hE ▸ hcipher k hk)
  rw [← hE, ← hD] at hz holdz hi hx0 hx1
  rw [← hD] at hbytes
  exact ⟨⟨hz, holdz, hi, hx0, hx1, haadxE.trans haadxD.symm⟩, hbytes⟩

/-! A destination that is not overlapped forwards is as good as any other (R57). -/

/-- Induction over the words: both loops read the same words, so they put out the same, wherever they write it. -/
theorem streamWords_destination (kind : Kind) {words a d f rem : Nat} {t : State} {m : Memory}
    (hwords : wordCount rem = words) (haheadD : ReadsAhead a d rem) (haheadF : ReadsAhead a f rem)
    (hsource : ∀ k, k < rem → readByte m (a + k) = readByte t.mem (a + k)) :
    ∃ m', streamWords kind words a d rem { t with mem := m } = { streamWords kind words a f rem t with mem := m' } ∧
      ∀ k, k < rem → readByte m' (d + k) = readByte (streamWords kind words a f rem t).mem (f + k) := by
  induction words generalizing a d f rem t m with
  | zero =>
    refine ⟨m, rfl, fun k hk => ?_⟩
    rw [wordCount_eq] at hwords
    omega
  | succ words ih =>
    have hnb : min rem 4 ≤ rem := Nat.min_le_left rem 4
    have hread : memRead m a (min rem 4) = memRead t.mem a (min rem 4) :=
      memRead_congr fun k hk => hsource k (by omega)
    have hword : streamWord kind a d (min rem 4) { t with mem := m } =
        { streamWord kind a f (min rem 4) t with
          mem := memWrite m d (min rem 4) (outputWord (memRead t.mem a (min rem 4)) (min rem 4) t) } := by
      rw [← hread, streamWord, streamWord, ← hread]; rfl
    obtain ⟨m', hloop, hbytes⟩ := ih (t := streamWord kind a f (min rem 4) t) (wordCount_tail hwords)
      (haheadD.tail hnb) (haheadF.tail hnb) (m := memWrite m d (min rem 4)
        (outputWord (memRead t.mem a (min rem 4)) (min rem 4) t)) fun k hk => by
          rw [haheadD.readByte_memWrite hk, streamWord_mem, haheadF.readByte_memWrite hk, Nat.add_assoc,
            hsource _ (by omega)]
    have hloops : streamWords kind (words + 1) a d rem { t with mem := m } =
        { streamWords kind (words + 1) a f rem t with mem := m' } := by
      rw [streamWords_succ, hword, hloop, streamWords_succ]
    refine ⟨m', hloops, fun k hk => ?_⟩
    by_cases hhead : k < min rem 4
    case pos =>
      have hbyte := readByte_streamWords_head kind words a d rem { t with mem := m } hhead
      rw [hloops] at hbyte
      rw [hbyte, readByte_streamWords_head _ _ _ _ _ _ hhead, ← hread]
      rfl
    case neg =>
      rw [readByte_streamWords_tail _ _ _ _ _ _ hhead, ← hbytes _ (by omega), Nat.add_assoc d,
        Nat.add_sub_cancel' (Nat.le_of_not_lt hhead)]

/-- Settles O45: a lower destination and one that the source does not meet are both read ahead of. -/
theorem backwardOverlapIsSafe : Obligations.BackwardOverlapIsSafe := by
  intro s src dst far len hphase hmsg hsrc hdst hfar hlower hdisjoint
  have hpassDst := (process_pass_iff src dst len s).mpr ⟨hphase, hmsg, hsrc, hdst⟩
  have hpassFar := (process_pass_iff src far len s).mpr ⟨hphase, hmsg, hsrc, hfar⟩
  have haheadFar : ReadsAhead src.toNat far.toNat len.toNat := by
    unfold ReadsAhead
    omega
  obtain ⟨m, hloops, hbytes⟩ := streamWords_destination (kindOfMode s.mode) (t := messageStart len s) rfl
    (Or.inl hlower : ReadsAhead src.toNat dst.toNat len.toNat) haheadFar (m := s.mem) fun _ _ => rfl
  have hstates : processedState src dst len s = { processedState src far len s with mem := m } := hloops
  refine ⟨_, _, exec_process_accepted hpassDst, exec_process_accepted hpassFar, ?_, ?_⟩
  · rw [hstates]
  · rw [hstates]
    exact hbytes

/-! The order of the data commands in a session (R123, R128). -/

/-- The word of `MISALIGNED_DATA` (R68, R69). -/
theorem responseWord_misalignedData : responseWord .misalignedData 0 = 0x00000003#32 := by decide

/-- Settles O46: with the XOR consumed `PROCESS_AAD` is refused, and an accepted command that changes `AADLEN` or makes
the XOR pending again leaves the open session. -/
theorem messageClosesAadPhase : Obligations.MessageClosesAadPhase := by
  refine ⟨fun i s t hphase hbegun hexec hsession => ?sameSession, fun src dst len s t hexec hresponses => ?closes,
    fun src len s hphase hbegun => ?refused⟩
  case sameSession =>
    obtain rfl := exec_eq_next_iff.mp hexec
    rcases commandResult_cases i s with ⟨c, _, _, hresult⟩ | ⟨hpass, hresult⟩ <;> rw [hresult] at hsession ⊢
    case inl => exact ⟨rfl, hbegun⟩
    case inr =>
      rw [deliver_phase, commandEffect_phase] at hsession
      cases i with
      | processAad src len =>
        obtain ⟨_, hpending, _⟩ := (processAad_pass_iff src len s).mp hpass
        exact absurd hbegun hpending
      | process src dst len =>
        obtain ⟨z, oldz, m, hstate⟩ := processedState_spec src dst len s
        rw [commandEffect, hstate]
        exact ⟨rfl, rfl⟩
      | finalize dst =>
        obtain ⟨z, oldz, buf, m, hstate⟩ := finalizedState_spec dst s
        rw [commandEffect, hstate]
        exact ⟨rfl, hbegun⟩
      | setupKey _ _ _ | setupNonce _ _ | reset | erase => simp [phaseAfter] at hsession
      | getKeySize | getNonceSize | getWordSize | getMacSize => exact ⟨rfl, hbegun⟩
  case closes =>
    rw [exec_process_accepted (pass_of_responses hexec hresponses)] at hexec
    obtain ⟨z, oldz, m, hstate⟩ := processedState_spec src dst len s
    rw [hstate] at hexec
    obtain rfl := Host.Outcome.next.inj hexec
    exact ⟨rfl, rfl⟩
  case refused =>
    rw [exec_refuses_iff (by decide) responseWord_misalignedData, processAad_misalignedData_iff, legalData_iff,
      msgBegun_iff]
    exact ⟨.inr hphase, .inl hbegun⟩

section
variable {s : State} (hphase : s.phase = .armed ∨ s.phase = .streaming)
include hphase

/-- With its range admitted `PROCESS_AAD` is accepted or answers `MISALIGNED_DATA` (R120, R163). -/
theorem processAad_responds {src len : Word} (hsrc : rangeAdmitted s.backed src len.toNat = true) :
    ∃ t, exec (.processAad src len) s = .next t ∧ t.responses = s.responses ++
      [if s.aadx ≠ 0 ∧ s.aadLen.toNat % 4 = 0 then 0x00000000#32 else 0x00000003#32] := by
  by_cases haccepts : s.aadx ≠ 0 ∧ s.aadLen.toNat % 4 = 0
  case pos =>
    have hpass := (processAad_pass_iff src len s).mpr ⟨hphase, haccepts.1, haccepts.2, hsrc⟩
    exact ⟨_, exec_processAad_accepted hpass, by rw [if_pos haccepts]⟩
  case neg =>
    have hfail : firstFailure (commandChecks (.processAad src len) s) = some .misalignedData := by
      rw [processAad_misalignedData_iff, legalData_iff, msgBegun_iff, aadShort_iff]
      exact ⟨hphase, by tauto⟩
    exact ⟨_, (exec_refuses_iff (by decide) responseWord_misalignedData _ s).mpr hfail, by rw [if_neg haccepts]⟩

/-- With its ranges admitted `PROCESS` is accepted and leaves nothing pending, or answers `MISALIGNED_DATA`
(R121, R163). -/
theorem process_responds {src dst len : Word} (hsrc : rangeAdmitted s.backed src len.toNat = true)
    (hdst : rangeAdmitted s.backed dst len.toNat = true) :
    ∃ t, exec (.process src dst len) s = .next t ∧
      t.aadx = (if s.msgLen.toNat % 4 = 0 then 0 else s.aadx) ∧
      t.responses = s.responses ++ [if s.msgLen.toNat % 4 = 0 then 0x00000000#32 else 0x00000003#32] := by
  by_cases haccepts : s.msgLen.toNat % 4 = 0
  case pos =>
    have hpass := (process_pass_iff src dst len s).mpr ⟨hphase, haccepts, hsrc, hdst⟩
    obtain ⟨z, oldz, m, hstate⟩ := processedState_spec src dst len s
    exact ⟨_, exec_process_accepted hpass, by rw [if_pos haccepts, hstate], by rw [if_pos haccepts]⟩
  case neg =>
    have hfail : firstFailure (commandChecks (.process src dst len) s) = some .misalignedData := by
      rw [process_misalignedData_iff, legalData_iff, msgShort_iff]
      exact ⟨hphase, haccepts⟩
    exact ⟨_, (exec_refuses_iff (by decide) responseWord_misalignedData _ s).mpr hfail, by rw [if_neg haccepts],
      by rw [if_neg haccepts]⟩

end

/-- Settles O47: by the invariant a pending XOR means that no message byte has been counted. -/
theorem dataAcceptanceTable : Obligations.DataAcceptanceTable := by
  intro src dst len s hinv hphase hsrc hdst hmac
  have hpending : s.aadx ≠ 0 → s.msgLen.toNat % 4 = 0 := by
    intro haadx
    rw [hinv.pending (hphase.imp_right .inl) haadx]
    rfl
  obtain ⟨a, haad, hresponsesA⟩ := processAad_responds hphase hsrc
  obtain ⟨p, hprocess, haadx, hresponsesP⟩ := process_responds hphase hsrc hdst
  have hrow : s.msgLen.toNat % 4 = 0 ↔ s.aadx ≠ 0 ∨ s.msgLen.toNat % 4 = 0 := ⟨.inr, fun h => h.elim hpending id⟩
  refine ⟨a, p, _, haad, hprocess, exec_accepted ((finalize_pass_iff dst s).mpr ⟨hphase, hmac⟩) rfl, ?_, hpending, ?_,
    hresponsesA, ?_⟩
  · rw [commandEffect_responses]
  · rw [haadx]
    split
    case isTrue => rfl
    case isFalse hshort => exact not_not.mp fun hne => hshort (hpending hne)
  · rw [hresponsesP]
    simp only [← hrow]

end Sys2Proof
end

section
/-!
`FINALIZE` (spec/43_finalize_erase_query.md R140): its rounds as a plain iteration of the word-round beside the scratch
array, and the MAC bytes.
-/

namespace Sys2Proof

open Machine

/-! The rounds of the finaliser. -/

/-- The state after `n` word-rounds of kind `enc` on the word `p`, no output kept. -/
def roundsOn (p : Word) (n : Nat) (s : State) : State := (fun u => (wordRound p 4 .enc u).1)^[n] s

theorem roundsOn_succ (p : Word) (n : Nat) (s : State) :
    roundsOn p (n + 1) s = (wordRound p 4 .enc (roundsOn p n s)).1 := Function.iterate_succ_apply' _ n s

theorem SameRounds.roundsOn {s t : State} (h : SameRounds s t) (p : Word) (n : Nat) :
    SameRounds (roundsOn p n s) (roundsOn p n t) := by
  induction n with
  | zero => exact h
  | succ n ih =>
    rw [roundsOn_succ, roundsOn_succ]
    exact ih.wordRound p 4 .enc

/-- The scratch array takes no part in the rounds: after `n` of them the other registers are those of `roundsOn`, and
each of its first `n` words is that round's output (R140). -/
theorem foldl_macRound (p : Word) (n : Nat) (s : State) :
    SameRounds ((List.range n).foldl (macRound p) s) (roundsOn p n s) ∧
    ∀ k (_ : k < n) (hk : k < 12),
      ((List.range n).foldl (macRound p) s).macBuf[k] = outputWord p 4 (roundsOn p k s) := by
  induction n with
  | zero => exact ⟨⟨rfl, rfl, rfl, rfl, rfl⟩, fun k hk => absurd hk (Nat.not_lt_zero k)⟩
  | succ n ih =>
    obtain ⟨hsame, hwords⟩ := ih
    rw [List.range_succ, List.foldl_append, List.foldl_cons, List.foldl_nil, roundsOn_succ]
    refine ⟨?registers, fun k hkn hk => ?output⟩
    case registers =>
      obtain ⟨hz, holdz, hi, hx0, hx1⟩ := hsame.wordRound p 4 .enc
      exact ⟨hz, holdz, hi, hx0, hx1⟩
    case output =>
      simp only [macRound_macBuf, Vector.getElem_setIfInBounds]
      split
      case isTrue hlast => rw [← hlast, hsame.outputWord_eq]
      case isFalse hearlier => exact hwords k (by omega) hk

theorem macRounds_sameRounds (s : State) : SameRounds (macRounds s) (roundsOn (padTag s) 12 (macInject s)) :=
  (foldl_macRound (padTag s) 12 (macInject s)).1

/-- The scratch array after the finaliser (R140). -/
theorem macRounds_macBuf (s : State) {k : Nat} (hk : k < 12) :
    (macRounds s).macBuf[k] = outputWord (padTag s) 4 (roundsOn (padTag s) k (macInject s)) :=
  (foldl_macRound (padTag s) 12 (macInject s)).2 k hk hk

/-- The finaliser's result depends on the registers after its XORs and on the padding tag (R140). -/
theorem macRounds_congr {s t : State} (hsame : SameRounds (macInject s) (macInject t)) (htag : padTag s = padTag t) :
    SameRounds (macRounds s) (macRounds t) ∧ (macRounds s).macBuf = (macRounds t).macBuf := by
  constructor
  case left =>
    have hrounds := macRounds_sameRounds s
    rw [htag] at hrounds
    exact (hrounds.trans (hsame.roundsOn (padTag t) 12)).trans (macRounds_sameRounds t).symm
  case right =>
    refine Vector.ext fun k hk => ?_
    rw [macRounds_macBuf s hk, macRounds_macBuf t hk, htag, (hsame.roundsOn (padTag t) k).outputWord_eq]

/-- The XORs of the finaliser read the cipher registers and `AADLEN` (R140). -/
theorem macInject_sameRounds {s t : State} (hsame : SameCipher s t) (haadLen : s.aadLen = t.aadLen) :
    SameRounds (macInject s) (macInject t) := by
  refine ⟨?_, hsame.oldz, hsame.i, hsame.x0, hsame.x1⟩
  rw [macInject, macInject, hsame.z, hsame.aadx, haadLen]

theorem padTag_congr {s t : State} (hmsgLen : s.msgLen = t.msgLen) : padTag s = padTag t := by
  rw [padTag, hmsgLen, padTag]

/-! The MAC bytes. -/

/-- Byte `j` of MAC word `w` (R140). -/
theorem readByte_emitMac_word (dst : Nat) (s : State) {w j : Nat} (hw : w < macWords s.macSize) (hw4 : w < 4)
    (hj : j < 4) : readByte (emitMac dst s) (dst + 4 * w + j) = (s.macBuf[8 + w]).extractLsb' (8 * j) 8 := by
  have hbytes := macWords_bytes s.macSize
  have hword : (dst + 4 * w + j - dst) / 4 = w := by omega
  have hbyte : (dst + 4 * w + j - dst) % 4 = j := by omega
  rw [readByte_emitMac, if_pos (by omega), hword, hbyte, macInitCount]
  simp [Vector.getD, show 8 + w < 12 by omega]

/-- Outside the MAC range `FINALIZE` writes nothing (R140). -/
theorem readByte_emitMac_outside (dst : Nat) (s : State) {a : Nat} (ha : a < dst ∨ dst + macBytes s.macSize ≤ a) :
    readByte (emitMac dst s) a = readByte s.mem a := by
  rw [readByte_emitMac, if_neg (by omega)]

theorem emitMac_congr {s t : State} (dst : Nat) (hmacSize : s.macSize = t.macSize) (hmacBuf : s.macBuf = t.macBuf)
    (hmem : s.mem = t.mem) : emitMac dst s = emitMac dst t := by
  rw [emitMac, hmacSize, hmacBuf, hmem, emitMac]

/-- What the rounds leave alone, as far as the MAC writes read it. -/
theorem macRounds_frame (s : State) : (macRounds s).macSize = s.macSize ∧ (macRounds s).mem = s.mem := by
  obtain ⟨z, oldz, buf, hstate⟩ := macRounds_spec s
  rw [hstate]
  exact ⟨rfl, rfl⟩

@[simp] theorem finalizedState_macBuf (dst : Word) (s : State) :
    (finalizedState dst s).macBuf = (macRounds s).macBuf := rfl

@[simp] theorem finalizedState_mem (dst : Word) (s : State) :
    (finalizedState dst s).mem = emitMac dst.toNat (macRounds s) := rfl

theorem finalizedState_sameRounds (dst : Word) (s : State) : SameRounds (finalizedState dst s) (macRounds s) :=
  ⟨rfl, rfl, rfl, rfl, rfl⟩

theorem finalizedState_aadx (dst : Word) (s : State) : (finalizedState dst s).aadx = s.aadx := by
  obtain ⟨z, oldz, buf, m, hstate⟩ := finalizedState_spec dst s
  rw [hstate]

theorem exec_finalize_accepted {dst : Word} {s : State}
    (hpass : firstFailure (commandChecks (.finalize dst) s) = none) :
    exec (.finalize dst) s = .next { finalizedState dst s with responses := s.responses ++ [0x00000000#32] } := by
  rw [exec_accepted hpass rfl, commandEffect, finalizedState_responses]

/-- Settles O48: the rounds as an iteration, the MAC bytes, and the frame. -/
theorem finalizeCompletes : Obligations.FinalizeCompletes := by
  intro dst s hphase hrange p start after
  have hpass := (finalize_pass_iff dst s).mpr ⟨hphase, hrange⟩
  obtain ⟨hstrap, hmem⟩ := macRounds_frame s
  have hrounds := macRounds_sameRounds s
  refine ⟨_, exec_finalize_accepted hpass, rfl, rfl, hrounds.z, hrounds.oldz, ?count,
    fun k => macRounds_macBuf s k.isLt, fun w j hj hw => ?macBytes, fun a ha => ?outside, ?frame⟩
  case count =>
    obtain ⟨z, oldz, buf, m, hstate⟩ := finalizedState_spec dst s
    rw [hstate]
  case macBytes => exact readByte_emitMac_word dst.toNat (macRounds s) (hstrap ▸ hw) w.isLt hj
  case outside =>
    rw [← hmem]
    exact readByte_emitMac_outside dst.toNat (macRounds s) (hstrap ▸ ha)
  case frame =>
    obtain ⟨z, oldz, buf, m, hstate⟩ := finalizedState_spec dst s
    rw [hstate]
    exact ⟨rfl, rfl, rfl, rfl, rfl, rfl, rfl, rfl, rfl⟩

/-- Settles O49: the two finalisers start from the same registers and the same padding tag. -/
theorem macIgnoresModeAndBuffers : Obligations.MacIgnoresModeAndBuffers := by
  intro s t s' t' dst dst' hsame haadLen hmsgLen hstrap hphaseS hphaseT hrangeS hrangeT hexecS hexecT
  rw [exec_finalize_accepted ((finalize_pass_iff dst s).mpr ⟨hphaseS, hrangeS⟩)] at hexecS
  rw [exec_finalize_accepted ((finalize_pass_iff dst' t).mpr ⟨hphaseT, hrangeT⟩)] at hexecT
  obtain rfl := Host.Outcome.next.inj hexecS
  obtain rfl := Host.Outcome.next.inj hexecT
  obtain ⟨hrounds, hmacBuf⟩ := macRounds_congr (macInject_sameRounds hsame haadLen) (padTag_congr hmsgLen)
  refine ⟨?macBuf, ?cipher, fun k hk => ?bytes⟩
  case macBuf =>
    rw [finalizedState_macBuf, finalizedState_macBuf]
    exact hmacBuf
  case cipher =>
    have hfinal := ((finalizedState_sameRounds dst s).trans hrounds).trans (finalizedState_sameRounds dst' t).symm
    have haadx : (finalizedState dst s).aadx = (finalizedState dst' t).aadx := by
      rw [finalizedState_aadx, finalizedState_aadx, hsame.aadx]
    exact ⟨hfinal.z, hfinal.oldz, hfinal.i, hfinal.x0, hfinal.x1, haadx⟩
  case bytes =>
    obtain ⟨hstrapS, _⟩ := macRounds_frame s
    obtain ⟨hstrapT, _⟩ := macRounds_frame t
    rw [finalizedState_mem, finalizedState_mem, readByte_emitMac, readByte_emitMac, hstrapS, hstrapT, ← hstrap,
      if_pos (by omega), if_pos (by omega), hmacBuf, Nat.add_sub_cancel_left, Nat.add_sub_cancel_left]

/-! The empty sessions. -/

/-- A zero-length `PROCESS` is its bookkeeping alone (R121). -/
theorem processedState_zero (src dst : Word) (s : State) : processedState src dst 0 s = messageStart 0 s := rfl

/-- What a zero-length `PROCESS` leaves, its response delivered. -/
def emptyMessage (s : State) : State := { messageStart 0 s with responses := s.responses ++ [0x00000000#32] }

theorem exec_process_zero {src dst : Word} {s : State}
    (hpass : firstFailure (commandChecks (.process src dst 0) s) = none) :
    exec (.process src dst 0) s = .next (emptyMessage s) := by
  rw [exec_process_accepted hpass, processedState_zero, emptyMessage]

/-- The pending XOR goes into `Z1` once, whether `PROCESS` or `FINALIZE` makes it (R121, R140). -/
theorem macInject_emptyMessage_sameRounds (s : State) : SameRounds (macInject (emptyMessage s)) (macInject s) := by
  have hz1 : s.z.z1 ^^^ s.aadx ^^^ 0#32 = s.z.z1 ^^^ s.aadx := BitVec.xor_zero
  exact ⟨congrArg (fun w => { (macInject s).z with z1 := w }) hz1, rfl, rfl, rfl, rfl⟩

theorem padTag_emptyMessage (s : State) : padTag (emptyMessage s) = padTag s :=
  padTag_congr (BitVec.add_zero s.msgLen)

/-- Settles O50: the finaliser starts from the same registers, and `AADX` tells the two sessions apart. -/
theorem emptySessionsAgree : Obligations.EmptySessionsAgree := by
  intro s src dst mac harmed hmsg hrange
  have hpassT := (finalize_pass_iff mac s).mpr ⟨.inl harmed, hrange⟩
  have hpassU := (process_pass_iff src dst 0 s).mpr ⟨.inl harmed, hmsg, rangeAdmitted_zero _ _, rangeAdmitted_zero _ _⟩
  have hpassV := (finalize_pass_iff mac (emptyMessage s)).mpr ⟨.inr rfl, hrange⟩
  obtain ⟨hrounds, hmacBuf⟩ := macRounds_congr (macInject_emptyMessage_sameRounds s) (padTag_emptyMessage s)
  have hfinal := ((finalizedState_sameRounds mac (emptyMessage s)).trans hrounds).trans
    (finalizedState_sameRounds mac s).symm
  refine ⟨_, _, _, exec_finalize_accepted hpassT, exec_process_zero hpassU, exec_finalize_accepted hpassV, ?mem,
    ?macBuf, hfinal.z, hfinal.oldz, finalizedState_aadx mac s, finalizedState_aadx mac (emptyMessage s)⟩
  case mem =>
    obtain ⟨hstrapV, hmemV⟩ := macRounds_frame (emptyMessage s)
    obtain ⟨hstrapT, hmemT⟩ := macRounds_frame s
    rw [finalizedState_mem, finalizedState_mem]
    exact emitMac_congr _ (hstrapV.trans hstrapT.symm) hmacBuf (hmemV.trans hmemT.symm)
  case macBuf =>
    rw [finalizedState_macBuf, finalizedState_macBuf]
    exact hmacBuf

end Sys2Proof
end

section
/-!
The reset event during a command (spec/70_reset_and_hazards.md R190): the bytes that have been written stay, every
register is reset.
-/

namespace Sys2Proof

open Machine

/-! Buffer memory after an abandoned command. -/

theorem abandonedMem_of_error {d : Descriptor} {e : DecodeReject} (hdecode : decodeDescriptor d = .error e)
    (written : Nat) (s : State) : abandonedMem d written s = s.mem := by
  simp only [abandonedMem, hdecode]

/-- A command in flight has written the first bytes of its range as the completed command leaves them (R48, R190). -/
theorem abandonedMem_of_ok {d : Descriptor} {i : Instr} (hdecode : decodeDescriptor d = .ok i) (written : Nat)
    (s : State) :
    abandonedMem d written s = copyBytes (commandResult i s).mem (storeRange i s.macSize).1
      (min written (storeRange i s.macSize).2) s.mem := by
  simp only [abandonedMem, hdecode, exec_eq_next]

/-- Only `PROCESS` and `FINALIZE` have a range to write (R41). -/
theorem storeRange_of_not_writing {i : Instr} (hprocess : ∀ src dst len, i ≠ .process src dst len)
    (hfinalize : ∀ dst, i ≠ .finalize dst) (m : MacSize) : storeRange i m = (0, 0) := by
  cases i with
  | process src dst len => exact absurd rfl (hprocess src dst len)
  | finalize dst => exact absurd rfl (hfinalize dst)
  | _ => rfl

theorem abandonedMem_of_not_writing {d : Descriptor} {i : Instr} (hdecode : decodeDescriptor d = .ok i)
    (hprocess : ∀ src dst len, i ≠ .process src dst len) (hfinalize : ∀ dst, i ≠ .finalize dst) (written : Nat)
    (s : State) : abandonedMem d written s = s.mem := by
  rw [abandonedMem_of_ok hdecode, storeRange_of_not_writing hprocess hfinalize, Nat.min_zero, copyBytes]

/-- The bytes of an abandoned command: the first `written` of its range are the completed command's, the others are as
before (R190). -/
theorem readByte_abandonedMem {d : Descriptor} {i : Instr} {s t : State} (hdecode : decodeDescriptor d = .ok i)
    (hexec : exec i s = .next t) (written a : Nat) :
    readByte (abandonedMem d written s) a =
      if (storeRange i s.macSize).1 ≤ a ∧
        a < (storeRange i s.macSize).1 + min written (storeRange i s.macSize).2 then readByte t.mem a
      else readByte s.mem a := by
  obtain rfl := exec_eq_next_iff.mp hexec
  rw [abandonedMem_of_ok hdecode, readByte_copyBytes]

/-- The step in which the reset event strikes a command (R190). -/
theorem step_of_resetDuring {s : State} {d : Descriptor} {written : Nat} {strap : MacSize} {rest : List HostEvent}
    (hinputs : s.inputs = .resetDuring d written strap :: rest) :
    step s = .next { State.reset with
      macSize := strap, backed := s.backed, mem := abandonedMem d written { s with inputs := rest }, inputs := rest,
      responses := s.responses } := by
  rw [step_cons hinputs, handleEvent_resetDuring]
  rfl

/-- Settles O18: the descriptor decodes to its command, whose range is the destination's. -/
theorem resetDuringProcess : Obligations.ResetDuringProcess := by
  intro s t u src dst len written strap rest hinputs hexec hstep
  rw [step_of_resetDuring hinputs] at hstep
  obtain rfl := Host.Outcome.next.inj hstep
  exact ⟨rfl, readByte_abandonedMem (decodeDescriptor_encode _) hexec written⟩

/-- Settles O60: a descriptor that does not decode, a command with no range, and `FINALIZE` with the MAC's. -/
theorem resetDuringOtherCommands : Obligations.ResetDuringOtherCommands := by
  intro s d written strap rest hinputs
  exact ⟨_, step_of_resetDuring hinputs, rfl, fun e hdecode => abandonedMem_of_error hdecode written _,
    fun i hdecode hprocess hfinalize => abandonedMem_of_not_writing hdecode hprocess hfinalize written _,
    fun dst t hdecode hexec => readByte_abandonedMem hdecode hexec written⟩

end Sys2Proof
end

section
/-!
The invariant (spec/10_state.md R31): it holds at reset and every step keeps it.
-/

namespace Sys2Proof

open Machine

/-! The host's side of the state: memory between commands, the actions to come and the responses. -/

/-- A state with another memory and other lists of the host's. -/
def withHost (m : Memory) (inputs : List HostEvent) (rsps : List Word) (s : State) : State :=
  { s with mem := m, inputs := inputs, responses := rsps }

theorem nonceInit_withHost (m : Memory) (inputs : List HostEvent) (rsps : List Word) (s : State) :
    nonceInit (withHost m inputs rsps s) = withHost m inputs rsps (nonceInit s) := rfl

/-- The invariant says nothing of the host's side but that memory has the canonical form. -/
theorem inv_withHost {s : State} (h : Inv s) {m : Memory} (hmem : memWf m = true) (inputs : List HostEvent)
    (rsps : List Word) : Inv (withHost m inputs rsps s) where
  memory := hmem
  keyBits := h.keyBits
  bump := h.bump
  aadx := h.aadx
  armed := h.armed
  streaming := h.streaming
  erased := h.erased
  pending := h.pending
  schedule := h.schedule
  initialised := fun harmed => by rw [nonceInit_withHost, h.initialised harmed]

theorem inv_deliver {s : State} (h : Inv s) (rsp : Word) : Inv (deliver rsp s) :=
  inv_withHost h h.memory s.inputs (s.responses ++ [rsp])

/-! Reset and `ERASE`. -/

theorem not_keyed_fresh : ¬ Keyed .fresh := by simp [Keyed, Sessioned]

theorem not_keyed_erased : ¬ Keyed .erased := by simp [Keyed, Sessioned]

theorem not_sessioned_keyReady : ¬ Sessioned .keyReady := by simp [Sessioned]

/-- After the reset event there is no key and no session (R33, R190). -/
theorem inv_applyReset {s : State} (hmem : memWf s.mem = true) (strap : MacSize) : Inv (applyReset strap s) where
  memory := hmem
  keyBits := ⟨Nat.zero_le 256, rfl⟩
  bump := fun hkeyed => absurd hkeyed not_keyed_fresh
  aadx := .inl rfl
  armed := fun hphase => nomatch hphase
  streaming := fun hphase => nomatch hphase
  erased := fun hphase => nomatch hphase
  pending := fun hsession => absurd (.inr hsession) not_keyed_fresh
  schedule := fun hsession => absurd (.inr hsession) not_keyed_fresh
  initialised := fun hphase => nomatch hphase

/-- Settles O13: the state of R33 is what the reset event leaves of itself. -/
theorem resetSatisfiesInvariant : Obligations.ResetSatisfiesInvariant :=
  inv_applyReset (s := State.reset) memWf_reset .mac128

theorem inv_erasedState {s : State} (hmem : memWf s.mem = true) : Inv (erasedState s) where
  memory := hmem
  keyBits := ⟨Nat.zero_le 256, rfl⟩
  bump := fun hkeyed => absurd hkeyed not_keyed_erased
  aadx := .inl rfl
  armed := fun hphase => nomatch hphase
  streaming := fun hphase => nomatch hphase
  erased := fun _ => ⟨rfl, rfl, rfl, rfl, rfl, rfl, rfl, rfl, rfl, rfl, rfl, rfl, rfl⟩
  pending := fun hsession => absurd (.inr hsession) not_keyed_erased
  schedule := fun hsession => absurd (.inr hsession) not_keyed_erased
  initialised := fun hphase => nomatch hphase

/-! The setup commands. -/

/-- `BUMP` as one sum (R17, R31 (b)). -/
theorem bumpOf_eq_ofNat (kbits : Nat) (m : MacSize) :
    bumpOf kbits m = BitVec.ofNat 32 (kbits / 2 + macBits m % 128 * 2 ^ 8) := by
  have hterm : BitVec.ofNat 32 (macBits m % 128) <<< 8 = BitVec.ofNat 32 (macBits m % 128 * 2 ^ 8) := by
    cases m <;> decide
  rw [bumpOf_eq, hterm, BitVec.ofNat_add]

theorem inv_keyedState {s : State} (h : Inv s) (mode : Mode) (src : Word) {kbits : Word} (hmax : kbits.toNat ≤ 256)
    (hbytes : kbits.toNat % 8 = 0) : Inv (keyedState mode src kbits s) := by
  have hkeyBits : (keyedState mode src kbits s).keyBits.toNat = kbits.toNat := by
    rw [keyedState_keyBits, BitVec.toNat_ofNat]
    omega
  have hphase := keyedState_phase mode src kbits s
  constructor
  case memory => rw [keyedState_mem]; exact h.memory
  case keyBits => rw [hkeyBits]; exact ⟨hmax, hbytes⟩
  case bump => intro _; rw [hkeyBits, keyedState_bump, keyedState_macSize, bumpOf_eq_ofNat]
  case aadx => rw [keyedState_aadx]; exact h.aadx
  case pending | schedule => rw [hphase]; exact fun hsession => absurd hsession not_sessioned_keyReady
  case armed | streaming | erased | initialised => rw [hphase]; exact fun hphase' => nomatch hphase'

/-- An engine whose session has just been derived (R105, R106). -/
def initialisedState (s : State) : State := { nonceInit s with phase := .armed }

theorem armedState_eq_initialisedState (src : Word) (s : State) :
    armedState src s = initialisedState { s with n := nonceWords s.mem src.toNat } := rfl

/-- The initialiser run again finds the same key and nonce (R106). -/
theorem nonceInit_initialisedState (s : State) : nonceInit (initialisedState s) = initialisedState s := by
  rw [initialisedState, nonceInit_eq s, nonceInit_eq]

theorem inv_initialisedState {s : State} (hmem : memWf s.mem = true)
    (hkeyBits : s.keyBits.toNat ≤ 256 ∧ s.keyBits.toNat % 8 = 0)
    (hbump : s.bump = BitVec.ofNat 32 (s.keyBits.toNat / 2 + macBits s.macSize % 128 * 2 ^ 8)) :
    Inv (initialisedState s) where
  memory := hmem
  keyBits := hkeyBits
  bump := fun _ => hbump
  aadx := .inr rfl
  armed := fun _ => ⟨rfl, rfl, rfl, rfl⟩
  streaming := fun hphase => nomatch hphase
  erased := fun hphase => nomatch hphase
  pending := fun _ _ => rfl
  schedule := fun _ => rfl
  initialised := fun _ => nonceInit_initialisedState s

/-- A phase after a key setup (R26). -/
theorem keyed_of_ne {p : Phase} (hfresh : p ≠ .fresh) (herased : p ≠ .erased) : Keyed p := by
  cases p <;> simp_all [Keyed, Sessioned]

/-! The data commands. -/

/-- R31 (e) in both open phases: an `Armed` engine has counted no word yet. -/
theorem round_count_of_open {s : State} (h : Inv s) (hphase : s.phase = .armed ∨ s.phase = .streaming) :
    s.i = BitVec.ofNat 32 (8 + (s.aadLen.toNat + 3) / 4 + (s.msgLen.toNat + 3) / 4) := by
  rcases hphase with harmed | hstreaming
  case inl =>
    obtain ⟨hi, haadLen, hmsgLen, _⟩ := h.armed harmed
    rw [hi, haadLen, hmsgLen]
    rfl
  case inr => exact h.streaming hstreaming

/-- The words of an aligned counter and those of a further call add up, modulo `2^32` also over the counter's wrap
(R20 to R22). -/
theorem ofNat_words_add {c : Counter64} (len : Word) (haligned : c.toNat % 4 = 0) (k : Nat) :
    BitVec.ofNat 32 (k + (c.toNat + 3) / 4) + BitVec.ofNat 32 (wordCount len.toNat) =
      BitVec.ofNat 32 (k + ((c + len.setWidth 64).toNat + 3) / 4) := by
  apply BitVec.eq_of_toNat_eq
  rw [BitVec.toNat_add, BitVec.toNat_ofNat, BitVec.toNat_ofNat, BitVec.toNat_ofNat, BitVec.toNat_add,
    BitVec.toNat_setWidth, wordCount_eq]
  omega

theorem sessioned_of_open {p : Phase} (hphase : p = .armed ∨ p = .streaming) : Sessioned p := hphase.imp_right .inl

section
variable {s : State} (h : Inv s) (hphase : s.phase = .armed ∨ s.phase = .streaming)
include h hphase

theorem inv_absorbedState (src : Word) {len : Word} (hpending : s.aadx ≠ 0) (haligned : s.aadLen.toNat % 4 = 0) :
    Inv (absorbedState src len s) := by
  have hsession := sessioned_of_open hphase
  obtain ⟨z, oldz, hstate⟩ := absorbedState_spec src len s
  rw [hstate]
  constructor
  case memory => exact h.memory
  case keyBits => exact h.keyBits
  case bump => exact fun _ => h.bump (.inr hsession)
  case aadx => exact h.aadx
  case streaming =>
    intro _
    have hmsgLen := h.pending hsession hpending
    have hcount := round_count_of_open h hphase
    rw [hmsgLen] at hcount ⊢
    show s.i + _ = _
    rw [hcount]
    exact ofNat_words_add len haligned 8
  case pending => exact fun _ => h.pending hsession
  case schedule => exact fun _ => h.schedule hsession
  case armed | erased | initialised => exact fun hphase' => nomatch hphase'

theorem inv_processedState (src : Word) {dst len : Word} (haligned : s.msgLen.toNat % 4 = 0)
    (hdst : rangeAdmitted s.backed dst len.toNat = true) : Inv (processedState src dst len s) := by
  have hsession := sessioned_of_open hphase
  have hmem : memWf (processedState src dst len s).mem = true :=
    memWf_streamWords _ _ _ _ _ h.memory (le_addrSpace_of_rangeAdmitted hdst)
  obtain ⟨z, oldz, m, hstate⟩ := processedState_spec src dst len s
  rw [hstate] at hmem ⊢
  constructor
  case memory => exact hmem
  case keyBits => exact h.keyBits
  case bump => exact fun _ => h.bump (.inr hsession)
  case aadx => exact .inl rfl
  case streaming =>
    intro _
    show s.i + _ = _
    rw [round_count_of_open h hphase]
    exact ofNat_words_add len haligned _
  case pending => exact fun _ hne => absurd rfl hne
  case schedule => exact fun _ => h.schedule hsession
  case armed | erased | initialised => exact fun hphase' => nomatch hphase'

theorem inv_finalizedState {dst : Word} (hdst : rangeAdmitted s.backed dst (macBytes s.macSize) = true) :
    Inv (finalizedState dst s) := by
  have hsession := sessioned_of_open hphase
  have hmem : memWf (finalizedState dst s).mem = true := by
    obtain ⟨hstrap, hkept⟩ := macRounds_frame s
    exact memWf_emitMac _ (hkept ▸ h.memory) (hstrap ▸ le_addrSpace_of_rangeAdmitted hdst)
  obtain ⟨z, oldz, buf, m, hstate⟩ := finalizedState_spec dst s
  rw [hstate] at hmem ⊢
  constructor
  case memory => exact hmem
  case keyBits => exact h.keyBits
  case bump => exact fun _ => h.bump (.inr hsession)
  case aadx => exact h.aadx
  case pending => exact fun _ => h.pending hsession
  case schedule => exact fun _ => h.schedule hsession
  case armed | streaming | erased | initialised => exact fun hphase' => nomatch hphase'

end

/-! Every command and every step. -/

theorem inv_commandEffect {i : Instr} {s : State} (h : Inv s) (hpass : firstFailure (commandChecks i s) = none) :
    Inv (commandEffect i s) := by
  cases i with
  | setupKey mode src kbits =>
    obtain ⟨_, ⟨hmax, hbytes⟩, _⟩ := (setupKey_pass_iff mode src kbits s).mp hpass
    exact inv_keyedState h mode src hmax hbytes
  | setupNonce src nbits =>
    obtain ⟨⟨hfresh, herased⟩, _⟩ := (setupNonce_pass_iff src nbits s).mp hpass
    rw [commandEffect, armedState_eq_initialisedState]
    exact inv_initialisedState h.memory h.keyBits (h.bump (keyed_of_ne hfresh herased))
  | processAad src len =>
    obtain ⟨hphase, hpending, haligned, _⟩ := (processAad_pass_iff src len s).mp hpass
    exact inv_absorbedState h hphase src hpending haligned
  | process src dst len =>
    obtain ⟨hphase, haligned, _, hdst⟩ := (process_pass_iff src dst len s).mp hpass
    exact inv_processedState h hphase src haligned hdst
  | finalize dst =>
    obtain ⟨hphase, hdst⟩ := (finalize_pass_iff dst s).mp hpass
    exact inv_finalizedState h hphase hdst
  | reset =>
    have hsession := (reset_pass_iff s).mp hpass
    exact inv_initialisedState h.memory h.keyBits (h.bump (.inr hsession))
  | erase => exact inv_erasedState h.memory
  | getKeySize | getNonceSize | getWordSize | getMacSize => exact h

theorem inv_commandResult {s : State} (h : Inv s) (i : Instr) : Inv (commandResult i s) := by
  rcases commandResult_cases i s with ⟨c, _, _, hresult⟩ | ⟨hpass, hresult⟩ <;> rw [hresult]
  case inl => exact inv_deliver h _
  case inr => exact inv_deliver (inv_commandEffect h hpass) _

/-- An abandoned command leaves a memory in canonical form (R190). -/
theorem memWf_abandonedMem {s : State} (h : Inv s) (d : Descriptor) (written : Nat) :
    memWf (abandonedMem d written s) = true := by
  cases hdecode : decodeDescriptor d with
  | error e => rw [abandonedMem_of_error hdecode]; exact h.memory
  | ok i => rw [abandonedMem_of_ok hdecode]; exact memWf_copyBytes (inv_commandResult h i).memory h.memory

theorem inv_execDescriptor {d : Descriptor} {s t : State} (h : Inv s) (hexec : execDescriptor d s = .next t) :
    Inv t := by
  cases hdecode : decodeDescriptor d with
  | error e =>
    rw [execDescriptor_of_error hdecode, failCommand_eq] at hexec
    obtain rfl := Host.Outcome.next.inj hexec
    exact inv_deliver h _
  | ok i =>
    rw [execDescriptor_of_ok hdecode] at hexec
    obtain rfl := exec_eq_next_iff.mp hexec
    exact inv_commandResult h i

theorem inv_handleEvent {e : HostEvent} {s t : State} (h : Inv s) (hevent : handleEvent e s = .next t) : Inv t := by
  cases e with
  | issue d => exact inv_execDescriptor h hevent
  | write a b =>
    obtain rfl := Host.Outcome.next.inj hevent
    exact inv_withHost h (memWf_writeByte b h.memory a.isLt) s.inputs s.responses
  | resetEvent strap =>
    obtain rfl := Host.Outcome.next.inj hevent
    exact inv_applyReset h.memory strap
  | resetDuring d written strap =>
    obtain rfl := Host.Outcome.next.inj hevent
    exact inv_applyReset (s := { s with mem := abandonedMem d written s }) (memWf_abandonedMem h d written) strap

/-- Settles O14: nothing to do, or one action of the host with it taken off the list. -/
theorem stepKeepsInvariant : Obligations.StepKeepsInvariant := by
  intro s t h hstep
  cases hinputs : s.inputs with
  | nil =>
    rw [step_nil hinputs] at hstep
    obtain rfl := Host.Outcome.next.inj hstep
    exact h
  | cons e rest =>
    rw [step_cons hinputs] at hstep
    exact inv_handleEvent (inv_withHost h h.memory rest s.responses) hstep

end Sys2Proof
end

section
/-!
Registers that no longer matter (spec/10_state.md R33, spec/93_implementation_defined.md U9): two machines that agree in
what is still to be read run alike for ever.
-/

namespace Sys2Proof

open Machine

/-! What the checks and the rounds see of two such machines. -/

section
variable {s t : State} (h : SameLive s t)
include h

/-- Every check reads the phase first, and the counters and `AADX` only in an open session (R27, R167). -/
theorem firstFailure_congr (i : Instr) : firstFailure (commandChecks i s) = firstFailure (commandChecks i t) := by
  by_cases hlegal : legalData s.phase = true
  case pos =>
    obtain ⟨_, _, _, _, haadLen, hmsgLen, haadx⟩ := h.open_ ((legalData_iff s.phase).mp hlegal)
    cases i <;>
      simp only [commandChecks, msgBegun, aadShort, msgShort, h.phase, h.backed, h.macSize, haadLen, hmsgLen, haadx]
  case neg =>
    have hclosed : legalData s.phase = false := Bool.not_eq_true _ ▸ hlegal
    have hclosed' : legalData t.phase = false := h.phase ▸ hclosed
    cases i with
    | processAad | process | finalize => simp only [commandChecks, firstFailure_cons, hclosed, hclosed', if_true]
    | _ => simp only [commandChecks, h.phase, h.backed]

theorem commandValue_congr (i : Instr) : commandValue i s = commandValue i t := by
  cases i with
  | getMacSize => rw [commandValue, h.macSize, commandValue]
  | _ => rfl

/-- In an open session everything a word-round reads is live (R33). -/
theorem sameRounds_of_open (hphase : s.phase = .armed ∨ s.phase = .streaming) : SameRounds s t := by
  obtain ⟨hz, holdz, hx1, hi, _⟩ := h.open_ hphase
  obtain ⟨hx0, _⟩ := h.keyed (.inr (sessioned_of_open hphase))
  exact ⟨hz, holdz, hi, hx0, hx1⟩

theorem sameCipher_of_open (hphase : s.phase = .armed ∨ s.phase = .streaming) : SameCipher s t := by
  obtain ⟨hz, holdz, hi, hx0, hx1⟩ := sameRounds_of_open h hphase
  obtain ⟨_, _, _, _, _, _, haadx⟩ := h.open_ hphase
  exact ⟨hz, holdz, hi, hx0, hx1, haadx⟩

end

/-! The loops on equal memories. -/

theorem absorbWords_sameRounds {s t : State} (hsame : SameRounds s t) (hmem : s.mem = t.mem) (words a rem : Nat) :
    SameRounds (absorbWords words a rem s) (absorbWords words a rem t) := by
  induction words generalizing a rem s t with
  | zero => exact hsame
  | succ words ih =>
    rw [absorbWords_succ, absorbWords_succ, hmem]
    exact ih (hsame.wordRound _ _ .aad) hmem _ _

theorem streamWords_sameRounds {s t : State} (hsame : SameRounds s t) (hmem : s.mem = t.mem) (kind : Kind)
    (words a d rem : Nat) :
    SameRounds (streamWords kind words a d rem s) (streamWords kind words a d rem t) ∧
      (streamWords kind words a d rem s).mem = (streamWords kind words a d rem t).mem := by
  induction words generalizing a d rem s t with
  | zero => exact ⟨hsame, hmem⟩
  | succ words ih =>
    rw [streamWords_succ, streamWords_succ]
    refine ih ?_ ?_ _ _ _
    · rw [streamWord, streamWord, hmem]
      exact (hsame.wordRound _ _ kind).withMem _ _
    · rw [streamWord_mem, streamWord_mem, hmem, hsame.outputWord_eq]

/-! Every accepted command. -/

section
variable {s t : State} (h : SameLive s t)
include h

/-- `SETUP_KEY` sets the key registers from its operands, memory and the strap; the others are out of use (R100). -/
theorem sameLive_keyedState (mode : Mode) (src kbits : Word) :
    SameLive (keyedState mode src kbits s) (keyedState mode src kbits t) := by
  have hphase := keyedState_phase mode src kbits s
  constructor
  case keyed => simp [h.mem, h.macSize]
  case sessioned => rw [hphase]; exact fun hsession => absurd hsession not_sessioned_keyReady
  case open_ => rw [hphase]; exact fun hopen => absurd (sessioned_of_open hopen) not_sessioned_keyReady
  all_goals simp [h.macSize, h.backed, h.mem, h.inputs, h.responses]

/-- The initialiser needs the key registers and the nonce (R105). -/
theorem sameLive_initialisedState (hkeyed : Keyed s.phase) {n : Vector Word 4} :
    SameLive (initialisedState { s with n := n }) (initialisedState { t with n := n }) := by
  obtain ⟨hx0, hbump, hmode⟩ := h.keyed hkeyed
  obtain ⟨hz, holdz, hx1, hi, haadLen, hmsgLen, haadx⟩ :=
    nonceInitReadsOnlyKeyAndNonce { s with n := n } { t with n := n } hx0 hbump rfl
  exact ⟨rfl, h.macSize, h.backed, h.mem, h.inputs, h.responses, fun _ => ⟨hx0, hbump, hmode⟩, fun _ => rfl,
    fun _ => ⟨hz, holdz, hx1, hi, haadLen, hmsgLen, haadx⟩⟩

theorem sameLive_absorbedState (hphase : s.phase = .armed ∨ s.phase = .streaming) (src len : Word) :
    SameLive (absorbedState src len s) (absorbedState src len t) := by
  have hsession := sessioned_of_open hphase
  obtain ⟨_, _, _, _, haadLen, hmsgLen, haadx⟩ := h.open_ hphase
  obtain ⟨hz, holdz, hi, hx0, hx1⟩ := sameRounds_of_open h hphase
  have hrounds : SameRounds (absorbedState src len s) (absorbedState src len t) := by
    rw [absorbedState, absorbedState]
    refine absorbWords_sameRounds ?_ ?_ _ _ _
    · exact ⟨hz, holdz, hi, hx0, hx1⟩
    · exact h.mem
  obtain ⟨z, oldz, hstateS⟩ := absorbedState_spec src len s
  obtain ⟨z', oldz', hstateT⟩ := absorbedState_spec src len t
  rw [hstateS, hstateT] at hrounds ⊢
  exact ⟨rfl, h.macSize, h.backed, h.mem, h.inputs, h.responses, fun _ => h.keyed (.inr hsession),
    fun _ => h.sessioned hsession,
    fun _ => ⟨hrounds.z, hrounds.oldz, hx1, hrounds.i, congrArg (· + len.setWidth 64) haadLen, hmsgLen, haadx⟩⟩

theorem sameLive_processedState (hphase : s.phase = .armed ∨ s.phase = .streaming) (src dst len : Word) :
    SameLive (processedState src dst len s) (processedState src dst len t) := by
  have hsession := sessioned_of_open hphase
  obtain ⟨_, _, hx1, _, haadLen, hmsgLen, _⟩ := h.open_ hphase
  obtain ⟨_, _, hmode⟩ := h.keyed (.inr hsession)
  have hloops : SameRounds (processedState src dst len s) (processedState src dst len t) ∧
      (processedState src dst len s).mem = (processedState src dst len t).mem := by
    rw [processedState, processedState, hmode]
    exact streamWords_sameRounds (messageStart_sameRounds (sameCipher_of_open h hphase) len) h.mem _ _ _ _ _
  obtain ⟨z, oldz, m, hstateS⟩ := processedState_spec src dst len s
  obtain ⟨z', oldz', m', hstateT⟩ := processedState_spec src dst len t
  rw [hstateS, hstateT] at hloops ⊢
  obtain ⟨hrounds, hmem⟩ := hloops
  exact ⟨rfl, h.macSize, h.backed, hmem, h.inputs, h.responses, fun _ => h.keyed (.inr hsession),
    fun _ => h.sessioned hsession,
    fun _ => ⟨hrounds.z, hrounds.oldz, hx1, hrounds.i, haadLen, congrArg (· + len.setWidth 64) hmsgLen, rfl⟩⟩

/-- After `FINALIZE` only memory, the key registers and the nonce are live (R140). -/
theorem sameLive_finalizedState (hphase : s.phase = .armed ∨ s.phase = .streaming) (dst : Word) :
    SameLive (finalizedState dst s) (finalizedState dst t) := by
  have hsession := sessioned_of_open hphase
  obtain ⟨_, _, _, _, haadLen, hmsgLen, _⟩ := h.open_ hphase
  have hmem : (finalizedState dst s).mem = (finalizedState dst t).mem := by
    obtain ⟨_, hmacBuf⟩ := macRounds_congr (macInject_sameRounds (sameCipher_of_open h hphase) haadLen)
      (padTag_congr hmsgLen)
    obtain ⟨hstrapS, hkeptS⟩ := macRounds_frame s
    obtain ⟨hstrapT, hkeptT⟩ := macRounds_frame t
    rw [finalizedState_mem, finalizedState_mem]
    exact emitMac_congr _ (hstrapS.trans (h.macSize.trans hstrapT.symm)) hmacBuf
      (hkeptS.trans (h.mem.trans hkeptT.symm))
  obtain ⟨z, oldz, buf, m, hstateS⟩ := finalizedState_spec dst s
  obtain ⟨z', oldz', buf', m', hstateT⟩ := finalizedState_spec dst t
  rw [hstateS, hstateT] at hmem ⊢
  exact ⟨rfl, h.macSize, h.backed, hmem, h.inputs, h.responses, fun _ => h.keyed (.inr hsession),
    fun _ => h.sessioned hsession, fun hopen => hopen.elim nofun nofun⟩

end

/-- In `Fresh` and `Erased` no register is live (R33). -/
theorem sameLive_of_keyless {s t : State} (hkeyless : s.phase = .fresh ∨ s.phase = .erased) (hphase : s.phase = t.phase)
    (hmacSize : s.macSize = t.macSize) (hbacked : s.backed = t.backed) (hmem : s.mem = t.mem)
    (hinputs : s.inputs = t.inputs) (hresponses : s.responses = t.responses) : SameLive s t := by
  have hkeyed : ¬ Keyed s.phase := by
    rcases hkeyless with hphase | hphase <;> rw [hphase]
    · exact not_keyed_fresh
    · exact not_keyed_erased
  exact ⟨hphase, hmacSize, hbacked, hmem, hinputs, hresponses, fun h => absurd h hkeyed,
    fun h => absurd (.inr h) hkeyed, fun h => absurd (.inr (sessioned_of_open h)) hkeyed⟩

section
variable {s t : State} (h : SameLive s t)
include h

theorem sameLive_commandEffect {i : Instr} (hpass : firstFailure (commandChecks i s) = none) :
    SameLive (commandEffect i s) (commandEffect i t) := by
  cases i with
  | setupKey mode src kbits => exact sameLive_keyedState h mode src kbits
  | setupNonce src nbits =>
    obtain ⟨⟨hfresh, herased⟩, _⟩ := (setupNonce_pass_iff src nbits s).mp hpass
    have hwords : nonceWords t.mem src.toNat = nonceWords s.mem src.toNat := by rw [h.mem]
    rw [commandEffect, commandEffect, armedState_eq_initialisedState, armedState_eq_initialisedState, hwords]
    exact sameLive_initialisedState h (keyed_of_ne hfresh herased)
  | processAad src len =>
    obtain ⟨hphase, _⟩ := (processAad_pass_iff src len s).mp hpass
    exact sameLive_absorbedState h hphase src len
  | process src dst len =>
    obtain ⟨hphase, _⟩ := (process_pass_iff src dst len s).mp hpass
    exact sameLive_processedState h hphase src dst len
  | finalize dst =>
    obtain ⟨hphase, _⟩ := (finalize_pass_iff dst s).mp hpass
    exact sameLive_finalizedState h hphase dst
  | reset =>
    have hsession := (reset_pass_iff s).mp hpass
    have hnonce : { t with n := s.n } = t := by rw [h.sessioned hsession]
    have hstates := sameLive_initialisedState h (.inr hsession) (n := s.n)
    rw [hnonce] at hstates
    exact hstates
  | erase => exact sameLive_of_keyless (.inr rfl) rfl h.macSize h.backed h.mem h.inputs h.responses
  | getKeySize | getNonceSize | getWordSize | getMacSize => exact h

theorem sameLive_withInputs (rest : List HostEvent) : SameLive { s with inputs := rest } { t with inputs := rest } :=
  ⟨h.phase, h.macSize, h.backed, h.mem, rfl, h.responses, h.keyed, h.sessioned, h.open_⟩

theorem sameLive_deliver (rsp : Word) : SameLive (deliver rsp s) (deliver rsp t) :=
  ⟨h.phase, h.macSize, h.backed, h.mem, h.inputs, congrArg (· ++ [rsp]) h.responses, h.keyed, h.sessioned, h.open_⟩

/-! Every command and every step. -/

theorem sameLive_commandResult (i : Instr) : SameLive (commandResult i s) (commandResult i t) := by
  have hchecks := firstFailure_congr h i
  rcases commandResult_cases i s with ⟨c, _, hfail, hresult⟩ | ⟨hpass, hresult⟩ <;> rw [hresult]
  case inl =>
    rw [commandResult_of_failure (hchecks ▸ hfail)]
    exact sameLive_deliver h _
  case inr =>
    rw [commandResult_of_pass (hchecks ▸ hpass), commandValue_congr h]
    exact sameLive_deliver (sameLive_commandEffect h hpass) _

theorem sameLive_execDescriptor (d : Descriptor) :
    ∃ s' t', execDescriptor d s = .next s' ∧ execDescriptor d t = .next t' ∧ SameLive s' t' := by
  cases hdecode : decodeDescriptor d with
  | error e =>
    rw [execDescriptor_of_error hdecode, execDescriptor_of_error hdecode]
    exact ⟨_, _, failCommand_eq _ s, failCommand_eq _ t, sameLive_deliver h _⟩
  | ok i =>
    rw [execDescriptor_of_ok hdecode, execDescriptor_of_ok hdecode]
    exact ⟨_, _, exec_eq_next i s, exec_eq_next i t, sameLive_commandResult h i⟩

/-- The bytes an abandoned command has written are the same ones (R190). -/
theorem abandonedMem_congr (d : Descriptor) (written : Nat) : abandonedMem d written s = abandonedMem d written t := by
  cases hdecode : decodeDescriptor d with
  | error e => rw [abandonedMem_of_error hdecode, abandonedMem_of_error hdecode, h.mem]
  | ok i =>
    rw [abandonedMem_of_ok hdecode, abandonedMem_of_ok hdecode, (sameLive_commandResult h i).mem, h.macSize, h.mem]

theorem sameLive_handleEvent (e : HostEvent) :
    ∃ s' t', handleEvent e s = .next s' ∧ handleEvent e t = .next t' ∧ SameLive s' t' := by
  cases e with
  | issue d => exact sameLive_execDescriptor h d
  | write a b =>
    refine ⟨_, _, rfl, rfl, ?_⟩
    rw [h.mem]
    exact ⟨h.phase, h.macSize, h.backed, rfl, h.inputs, h.responses, h.keyed, h.sessioned, h.open_⟩
  | resetEvent strap =>
    exact ⟨_, _, rfl, rfl, sameLive_of_keyless (.inl rfl) rfl rfl h.backed h.mem h.inputs h.responses⟩
  | resetDuring d written strap =>
    exact ⟨_, _, rfl, rfl,
      sameLive_of_keyless (.inl rfl) rfl rfl h.backed (abandonedMem_congr h d written) h.inputs h.responses⟩

theorem sameLive_step : ∃ s' t', step s = .next s' ∧ step t = .next t' ∧ SameLive s' t' := by
  cases hinputs : s.inputs with
  | nil => exact ⟨s, t, step_nil hinputs, step_nil (h.inputs ▸ hinputs), h⟩
  | cons e rest =>
    rw [step_cons hinputs, step_cons (h.inputs ▸ hinputs : t.inputs = e :: rest)]
    exact sameLive_handleEvent (sameLive_withInputs h rest) e

end

/-- Settles O16: agreement in the live registers is kept by every step, and without a key none is live. -/
theorem unsetRegistersNeverMatter : Obligations.UnsetRegistersNeverMatter :=
  ⟨fun _ _ h => sameLive_step h,
    fun _ _ hkeyless hphase hmacSize hbacked hmem hinputs hresponses => sameLive_of_keyless hkeyless hphase.symm
      hmacSize.symm hbacked.symm hmem.symm hinputs.symm hresponses.symm⟩

end Sys2Proof
end
